-- ==== Sys2Proof/Word.lean ====
section
/-! DEFINITION. The word types of the block (spec/00_scope.md R12, R14; spec/30_encoding.md R80).
Every value of the block is an unsigned number of a stated width. -/

namespace Sys2Proof

/-- A byte, a natural in 0..255 (R14). -/
abbrev Byte := BitVec 8

/-- A character code as the decoder takes it (R8 `CHAR_BITS` = 32, R83). -/
abbrev CharCode := BitVec 32

/-- The operand field `DATA[63:0]` of a command (R80). -/
abbrev Data := BitVec 64

/-- The 72-bit command word, `OP` at bits 71..64 and `DATA` at bits 63..0 (R80). -/
abbrev CommandWord := BitVec 72

/-- The 20-byte HMAC-SHA1 digest `H[0..19]` (R8 `DIGEST_BYTES`, R37). -/
abbrev Digest := Vector Byte 20

end Sys2Proof
end

