-- ==== Sys2Proof/Syntax.lean ====
section
/-! DEFINITION. The twelve commands of spec/opcode_table.json with their operand fields (spec/30_encoding.md R81,
R82). A command whose opcode is none of the twelve is no instruction: it is decoded to a rejection by name
(Sys2Proof/Decode.lean) and the block answers it with ILLEGAL_COMMAND (spec/40_system.md R103). -/

namespace Sys2Proof

/-- One constructor per row of the opcode table; the operand widths are those of R81. -/
inductive Instr where
  /-- `NOP`, format N (R102). -/
  | nop
  /-- `B32E.CLR`, format N (R131). -/
  | b32eClr
  /-- `B32E.BYTE`, format B: `b = DATA[7:0]` (R132). -/
  | b32eByte (b : Byte)
  /-- `B32E.FIN`, format N (R133). -/
  | b32eFin
  /-- `B32D.CLR`, format N (R142). -/
  | b32dClr
  /-- `B32D.CHAR`, format C: `c = DATA[31:0]` (R143). -/
  | b32dChar (c : CharCode)
  /-- `B32D.FIN`, format N (R144). -/
  | b32dFin
  /-- `BE64`, format W: `n = DATA[63:0]` (R111). -/
  | be64 (n : Data)
  /-- `HT.DIG`, format I: `i = DATA[15:8]`, `b = DATA[7:0]` (R172). -/
  | htDig (i b : Byte)
  /-- `HT.TRUNC`, format N (R173). -/
  | htTrunc
  /-- `HT.CODE`, format N (R174). -/
  | htCode
  /-- `HT.HOTP`, format N (R175). -/
  | htHotp
  deriving DecidableEq, Repr

end Sys2Proof
end

