-- ==== Sys2Proof/WellFormed.lean ====
section
/-! DEFINITION. The checks on what the host hands over as plain numbers and lists. A term of `Instr` needs no check:
its operand widths are in its type, and every operand value is a legal command (spec/30_encoding.md R83: HT.DIG with
an index above 19 is a legal command that answers ILLEGAL_OPERAND). DESIGN CHOICE, safe (notes/assumptions/5.md). -/

namespace Sys2Proof

/-- A command word given as two numbers fits the ports: `OP` has 8 bits and `DATA` 64 (R80). -/
def WellFormed.rawCommand (op data : Nat) : Bool :=
  decide (op < 2 ^ 8) && decide (data < 2 ^ 64)

/-- A byte list that `respond` may take has length 0 to 8 (spec/40_system.md R101). -/
def WellFormed.response (out : List Byte) : Bool :=
  decide (out.length ≤ 8)

/-- A number written for a `bits`-wide operand in the assembler fits it (R86 `imm8`, `imm32`, `idx`). -/
def WellFormed.immediate (bits : Nat) (v : Int) : Bool :=
  decide (0 ≤ v) && decide (v < 2 ^ bits)

/-- A number written for `imm64` in the assembler: as above, or any negative number, which stands for its
two's-complement value mod 2^64 (R86). -/
def WellFormed.immediate64 (v : Int) : Bool :=
  decide (v < 2 ^ 64)

/-- The byte list of `HT.LOAD` has exactly 20 entries (R87). -/
def WellFormed.digestList (hs : List Byte) : Bool :=
  hs.length == 20

end Sys2Proof
end

