-- ==== Sys2Proof/Decode.lean ====
section
/-! DEFINITION. The command word, its decoder and its encoder (spec/30_encoding.md R80 to R85), and the opcode map
as a table (R82). -/

namespace Sys2Proof

/-- Why a command word is no instruction: its `OP` is one of the 244 unassigned values (R85). The block answers it
with ILLEGAL_COMMAND (R103); it is no refusal of the model. -/
inductive DecodeReject where
  | unassignedOpcode (op : BitVec 8)
  deriving DecidableEq, Repr

/-- The five operand formats of R81. -/
inductive Format where
  | none
  | byte
  | character
  | word
  | indexedByte
  deriving DecidableEq, Repr

/-- The units a command acts on (R82's unit column; 40_system.md R104). -/
inductive BlockUnit where
  | system
  | encoder
  | decoder
  | counter
  | hotp
  deriving DecidableEq, Repr

/-- A command word from its two fields (R80). -/
def commandWord (op : BitVec 8) (data : Data) : CommandWord := op ++ data

/-- `OP = CMD[71:64]` (R80). -/
def opOf (w : CommandWord) : BitVec 8 := w.extractLsb' 64 8

/-- `DATA = CMD[63:0]` (R80). -/
def dataOf (w : CommandWord) : Data := w.extractLsb' 0 64

/-- `b = DATA[7:0]`, formats B and I (R81). -/
def fieldB (data : Data) : Byte := data.extractLsb' 0 8

/-- `i = DATA[15:8]`, format I (R81). -/
def fieldI (data : Data) : Byte := data.extractLsb' 8 8

/-- `c = DATA[31:0]`, format C: all 32 bits count (R81, R83). -/
def fieldC (data : Data) : CharCode := data.extractLsb' 0 32

/-- One row of the opcode map (R82). -/
structure OpcodeRow where
  op : BitVec 8
  mnemonic : String
  format : Format
  unit : BlockUnit
  deriving DecidableEq, Repr

/-- The opcode map of R82, row by row. -/
def opcodeMap : List OpcodeRow :=
  [⟨0x00, "NOP", .none, .system⟩,
   ⟨0x10, "B32E.CLR", .none, .encoder⟩,
   ⟨0x11, "B32E.BYTE", .byte, .encoder⟩,
   ⟨0x12, "B32E.FIN", .none, .encoder⟩,
   ⟨0x20, "B32D.CLR", .none, .decoder⟩,
   ⟨0x21, "B32D.CHAR", .character, .decoder⟩,
   ⟨0x22, "B32D.FIN", .none, .decoder⟩,
   ⟨0x30, "BE64", .word, .counter⟩,
   ⟨0x40, "HT.DIG", .indexedByte, .hotp⟩,
   ⟨0x41, "HT.TRUNC", .none, .hotp⟩,
   ⟨0x42, "HT.CODE", .none, .hotp⟩,
   ⟨0x43, "HT.HOTP", .none, .hotp⟩]

/-- The opcode is one of the twelve assigned values (R82; R85 calls every other value illegal). -/
def assigned (op : BitVec 8) : Bool := (opcodeMap.map (·.op)).contains op

/-- The decoder on the two fields: dispatch on `OP`, then take the format's operand fields (R80, R81, R82). -/
def decodeFields (op : BitVec 8) (data : Data) : Except DecodeReject Instr :=
  if op = 0x00 then .ok .nop
  else if op = 0x10 then .ok .b32eClr
  else if op = 0x11 then .ok (.b32eByte (fieldB data))
  else if op = 0x12 then .ok .b32eFin
  else if op = 0x20 then .ok .b32dClr
  else if op = 0x21 then .ok (.b32dChar (fieldC data))
  else if op = 0x22 then .ok .b32dFin
  else if op = 0x30 then .ok (.be64 data)
  else if op = 0x40 then .ok (.htDig (fieldI data) (fieldB data))
  else if op = 0x41 then .ok .htTrunc
  else if op = 0x42 then .ok .htCode
  else if op = 0x43 then .ok .htHotp
  else .error (.unassignedOpcode op)

/-- The decoder, total on every 72-bit word; a word with an unassigned opcode is rejected by name (R85). -/
def decode (w : CommandWord) : Except DecodeReject Instr := decodeFields (opOf w) (dataOf w)

/-- The opcode of an instruction (R82). -/
def Instr.opcode : Instr → BitVec 8
  | .nop => 0x00
  | .b32eClr => 0x10
  | .b32eByte _ => 0x11
  | .b32eFin => 0x12
  | .b32dClr => 0x20
  | .b32dChar _ => 0x21
  | .b32dFin => 0x22
  | .be64 _ => 0x30
  | .htDig _ _ => 0x40
  | .htTrunc => 0x41
  | .htCode => 0x42
  | .htHotp => 0x43

/-- The `DATA` field of an instruction with every ignored bit 0, as the assembler writes it (R86). -/
def Instr.operand : Instr → Data
  | .nop => 0
  | .b32eClr => 0
  | .b32eByte b => b.setWidth 64
  | .b32eFin => 0
  | .b32dClr => 0
  | .b32dChar c => c.setWidth 64
  | .b32dFin => 0
  | .be64 n => n
  | .htDig i b => (i ++ b).setWidth 64
  | .htTrunc => 0
  | .htCode => 0
  | .htHotp => 0

/-- The encoder: the command word of an instruction, ignored bits 0 (R80, R81, R86). -/
def encode (i : Instr) : CommandWord := commandWord i.opcode i.operand

/-- The unit an instruction belongs to (R82's unit column). -/
def Instr.unit : Instr → BlockUnit
  | .nop => .system
  | .b32eClr => .encoder
  | .b32eByte _ => .encoder
  | .b32eFin => .encoder
  | .b32dClr => .decoder
  | .b32dChar _ => .decoder
  | .b32dFin => .decoder
  | .be64 _ => .counter
  | .htDig _ _ => .hotp
  | .htTrunc => .hotp
  | .htCode => .hotp
  | .htHotp => .hotp

/-- The bits of `DATA` that a format reads (R81); the others are ignored (R84). -/
def Format.mask : Format → Data
  | .none => 0
  | .byte => 0xFF
  | .character => 0xFFFFFFFF
  | .word => 0xFFFFFFFFFFFFFFFF
  | .indexedByte => 0xFFFF

/-- The operand format of an opcode (R82); an unassigned opcode reads no operand (R103). -/
def formatOf (op : BitVec 8) : Format :=
  match opcodeMap.find? (fun r => r.op == op) with
  | some r => r.format
  | none => .none

/-- The same word with every ignored `DATA` bit 0 (R84, R86). -/
def clearIgnored (w : CommandWord) : CommandWord :=
  commandWord (opOf w) (dataOf w &&& (formatOf (opOf w)).mask)

/-- A command word from the host's two numbers, where they fit the ports (R80). -/
def commandOfRaw (op data : Nat) : Option CommandWord :=
  if WellFormed.rawCommand op data then
    some (commandWord (BitVec.ofNat 8 op) (BitVec.ofNat 64 data))
  else none

/-- The command word whose bits are `w` as spec/opcode_table.json numbers them: the first word is `OP` (bits 7..0)
and the second is `DATA`, whose bit k is bit 8 + k; bits at and above `nbits` are 0. DEDUCED, safe (notes/assumptions/9.md). -/
def tableCommand (nbits w : Nat) : CommandWord :=
  commandWord (BitVec.ofNat 8 (w % 2 ^ nbits)) (BitVec.ofNat 64 (w % 2 ^ nbits / 256))

/-- What the decoder reads from that word; `none` where it rejects it. -/
def decodeTableWord (nbits w : Nat) : Option Instr :=
  match decode (tableCommand nbits w) with
  | .ok i => some i
  | .error _ => none

end Sys2Proof
end

