-- ==== Sys2Proof/Config.lean ====
section
/-! DEFINITION. What is fixed for the block (spec/00_scope.md R8), the host software's parameters (R9), and the
one free function, HMAC-SHA1, which is external to the block (spec/93_implementation_defined.md I-6). -/

namespace Sys2Proof

/-- `OFFSET_MASK` of R8: the low nibble of the digest's last byte is the offset. -/
abbrev Config.offsetMask : Nat := 0x0F

/-- `TOP_MASK` of R8: drops the top bit of the truncated value. -/
abbrev Config.topMask : Nat := 0x7F

/-- `CODE_MOD` of R8: the fixed modulus (R44: not configurable). -/
abbrev Config.codeMod : Nat := 1000000

/-- `PAD_CHAR` of R8: the character `=`, code 0x3D (R11). -/
abbrev Config.padChar : CharCode := 0x3D

/-- `TIME_STEP` of R9 in seconds: a parameter of the host software, which the block never reads. -/
abbrev Config.timeStep : Nat := 30

/-- `WINDOW` of R9: the default drift window of the host's `verifyTotp` (R239). -/
abbrev Config.window : Nat := 3

/-- The external HMAC-SHA1 unit as the host sees it: an uninterpreted total function of the key and the message
(spec/93_implementation_defined.md I-6, spec/70_reset_and_hazards.md R235). A FREE VALUE: no body, so nothing can
be proved of a particular digest. Safe (notes/assumptions/6.md). -/
opaque Config.hmacSha1 (key message : List Byte) : Digest

end Sys2Proof
end

