-- ==== Sys2Proof/Machine/State.lean ====
section
/-! DEFINITION. The whole state of the block (spec/10_state.md R32), the host's side of its ports
(spec/70_reset_and_hazards.md R233, R240), the reasons a step can stop, and the reset state (R220). -/

namespace Sys2Proof.Machine

/-- The status codes of `RSP_ST` (spec/60_exceptions.md R200). -/
inductive Status where
  /-- 0: no error. -/
  | ok
  /-- 1: a decode character outside the alphabet and padding set, before the stream's first pad (R201). -/
  | invalidEncoding
  /-- 2: `OP` is not in the opcode map (R202). -/
  | illegalCommand
  /-- 3: a digest index of 20 or more (R203). -/
  | illegalOperand
  deriving DecidableEq, Repr

/-- One action of the host on the block's ports; there are exactly these three (R233). -/
inductive HostAction where
  /-- Issue one command (R233 a). -/
  | command (w : CommandWord)
  /-- Read the observation port at selector `sel` (R233 b, spec/10_state.md R45). -/
  | readPort (sel : BitVec 8)
  /-- Assert `RST` between commands (R233 c, R220). -/
  | assertRst
  deriving DecidableEq, Repr

/-- The response of one command: its status and its emitted bytes, `RSP_DAT[0..RSP_CNT-1]` (R18, R40). -/
structure Response where
  status : Status
  bytes : List Byte
  deriving DecidableEq, Repr

/-- What the host sees of one action (R240: one response per command, in order). -/
inductive HostSeen where
  | response (r : Response)
  | portValue (sel : BitVec 8) (v : BitVec 64)
  | resetDone
  deriving DecidableEq, Repr

/-- The state. The fourteen registers of R32 come first; the last three fields are the MODEL's own and no registers
of the block: DESIGN CHOICE, unsafe only for a claim about what they hold (notes/assumptions/1.md and 2.md). The status
and the two flags are an inductive and Bools with the register's bits in the port view: DESIGN CHOICE, safe
(notes/assumptions/10.md). -/
structure State where
  /-- `ENC_ACC`, the encoder's residual bits (R33). -/
  encAcc : BitVec 4
  /-- `ENC_N`, how many residual bits the encoder holds (R33). -/
  encN : BitVec 3
  /-- `DEC_ACC`, the decoder's residual bits (R34). -/
  decAcc : BitVec 7
  /-- `DEC_N`, how many residual bits the decoder holds (R34). -/
  decN : BitVec 3
  /-- `DEC_STOP`, the stream has seen a pad (R35). -/
  decStop : Bool
  /-- `DEC_ERR`, the stream has failed (R36). -/
  decErr : Bool
  /-- `DIG[0..19]`, the digest buffer (R37). -/
  dig : Vector Byte 20
  /-- `TR_OFF`, the last truncation offset (R38). -/
  trOff : BitVec 4
  /-- `TR_BIN`, the last truncated value (R38). -/
  trBin : BitVec 31
  /-- `CODE_VAL`, the last code value (R39). -/
  codeVal : BitVec 20
  /-- `CODE_CHR[0..5]`, its six digits as character codes (R39). -/
  codeChr : Vector Byte 6
  /-- `RSP_ST`, the last command's status (R40). -/
  rspSt : Status
  /-- `RSP_CNT`, how many bytes the last command emitted (R40). -/
  rspCnt : BitVec 4
  /-- `RSP_DAT[0..7]`, those bytes in emission order (R40). -/
  rspDat : Vector Byte 8
  /-- The host's remaining actions, next first. -/
  pending : List HostAction
  /-- What the host has seen, oldest first. -/
  seen : List HostSeen
  /-- `RST` has been asserted at least once (R221). -/
  rstSeen : Bool
  deriving DecidableEq, Repr

/-- No step of the block faults (spec/40_system.md R100, spec/60_exceptions.md R205: there is no trap), so there is
no fault reason: no meaning and no step raises one. -/
inductive Fault where
  deriving DecidableEq, Repr

/-- Why a step has no next state. -/
inductive Refusal where
  /-- An instruction whose meaning is not written yet; raised by an arm of `exec` only, and by none now. Safe: the
  model stops where the block goes on. -/
  | notModelled (mnemonic : String)
  /-- A command or a port read before the first reset, raised by the command port and by the
  observation port, for a host action and for a host procedure alike (Machine/Port.lean): "That case
  is refused, not given a value" (R221). Safe: the model stops where a real device might do something. -/
  | beforeFirstReset
  deriving DecidableEq, Repr

/-- The state right after reset (R220, R32's reset column): every register at its reset value, nothing issued yet. -/
def State.reset : State where
  encAcc := 0
  encN := 0
  decAcc := 0
  decN := 0
  decStop := false
  decErr := false
  dig := #v[0, 0, 0, 0, 0, 0, 0, 0, 0, 0, 0, 0, 0, 0, 0, 0, 0, 0, 0, 0]
  trOff := 0
  trBin := 0
  codeVal := 0
  codeChr := #v[0x30, 0x30, 0x30, 0x30, 0x30, 0x30]
  rspSt := .ok
  rspCnt := 0
  rspDat := #v[0, 0, 0, 0, 0, 0, 0, 0]
  pending := []
  seen := []
  rstSeen := true

end Sys2Proof.Machine
end

