-- ==== Sys2Proof/Machine/Ops.lean ====
section
/-! DEFINITION. The named operations on the registers (spec/00_scope.md R15, spec/40_system.md R101,
spec/10_state.md R32's written-by column), error reporting as one shared operation (spec/60_exceptions.md R205),
reset (spec/70_reset_and_hazards.md R220), and the host's side of the ports. -/

namespace Sys2Proof.Machine

/-- The outcome of one command or one step. -/
abbrev Result := Host.Outcome State Fault Refusal

/-- The response rule (R101): the status, the count, and the bytes with 0 at every index at or above the count. -/
def respond (st : Status) (out : List Byte) (s : State) : State :=
  { s with
    rspSt := st
    rspCnt := BitVec.ofNat 4 out.length
    rspDat := #v[out.getD 0 0, out.getD 1 0, out.getD 2 0, out.getD 3 0,
                 out.getD 4 0, out.getD 5 0, out.getD 6 0, out.getD 7 0] }

/-- `raise` (R15): an error is its status with no bytes. There is no trap and no return from one: nothing is saved,
no control is transferred, no mode changes (R205, R206). The register writes an error's own rule names are made by
the meaning that raises it. -/
def raise (st : Status) (s : State) : State := respond st [] s

/-- Write the encoder's residual `ENC_ACC`, `ENC_N` (R33). -/
def setEnc (acc : BitVec 4) (n : BitVec 3) (s : State) : State :=
  { s with encAcc := acc, encN := n }

/-- Write the decoder's residual `DEC_ACC`, `DEC_N` (R34). -/
def setDec (acc : BitVec 7) (n : BitVec 3) (s : State) : State :=
  { s with decAcc := acc, decN := n }

/-- `DIG[i] <- b` for a legal index (R37, R172). -/
def setDig (i : Nat) (h : i < 20) (b : Byte) (s : State) : State :=
  { s with dig := s.dig.set i b }

/-- Write `TR_OFF` and `TR_BIN` (R38). -/
def setTr (off : BitVec 4) (bin : BitVec 31) (s : State) : State :=
  { s with trOff := off, trBin := bin }

/-- Write `CODE_VAL` and `CODE_CHR[0..5]` (R39). -/
def setCode (v : BitVec 20) (chars : Vector Byte 6) (s : State) : State :=
  { s with codeVal := v, codeChr := chars }

/-- `RST` (R220): every register takes its reset value; the host's own side stays, and `RST` has now been seen. -/
def applyReset (s : State) : State :=
  { State.reset with pending := s.pending, seen := s.seen }

/-- The response the registers hold: `RSP_ST` and `RSP_DAT[0..RSP_CNT-1]` (R18, R40). -/
def responseOf (s : State) : Response :=
  ⟨s.rspSt, s.rspDat.toList.take s.rspCnt.toNat⟩

/-- The host sees one more thing (R240). -/
def record (x : HostSeen) (s : State) : State :=
  { s with seen := s.seen ++ [x] }

/-- The host's next action is taken. -/
def setPending (p : List HostAction) (s : State) : State :=
  { s with pending := p }

/-- The block as it is once its boot is done (R222): as it stands, or, if `RST` was never asserted, reset first, since
the registers of a block never reset are not defined (R221). -/
def booted (s : State) : State := if s.rstSeen then s else applyReset s

/-- Present a command at the command port of the booted block, to be taken before every other action (R222: assert
`RST` once, then issue commands). -/
def present (w : CommandWord) (s : State) : State :=
  setPending (.command w :: s.pending) (booted s)

/-- Go on with the next state's value; a stop stays a stop. -/
def andThen {σ τ : Type} (o : Host.Outcome σ Fault Refusal) (f : σ → Host.Outcome τ Fault Refusal) :
    Host.Outcome τ Fault Refusal :=
  match o with
  | .next a => f a
  | .fault r => .fault r
  | .refused r => .refused r

end Sys2Proof.Machine
end

