-- ==== Sys2Proof/Machine/Flags.lean ====
section
/-! DEFINITION. The flags of the block (spec/10_state.md R43): the decoder's `DEC_STOP` and `DEC_ERR`, and the
status codes of `RSP_ST` (spec/60_exceptions.md R200). There are no condition codes and no carry. -/

namespace Sys2Proof.Machine

/-- The code of a status in `RSP_ST` (R200). -/
def statusCode : Status → BitVec 2
  | .ok => 0
  | .invalidEncoding => 1
  | .illegalCommand => 2
  | .illegalOperand => 3

/-- `DEC_STOP <- 1`: the stream has seen a pad (R35, R143). -/
def setStop (s : State) : State := { s with decStop := true }

/-- `DEC_ERR <- 1`: the stream has failed (R36, R143). -/
def setErr (s : State) : State := { s with decErr := true }

/-- Clear the decoder: residual and both flags (R142, R144). -/
def clearDec (s : State) : State :=
  { s with decAcc := 0, decN := 0, decStop := false, decErr := false }

/-- The verdict of a decode stream (R144, R152). -/
def decVerdict (s : State) : Status := if s.decErr then .invalidEncoding else .ok

end Sys2Proof.Machine
end

