-- ==== Sys2Proof/Machine/Operands.lean ====
section
/-! DEFINITION. What the commands compute their operands with: masks and slices (spec/00_scope.md R12, R13), the
Base32 alphabet (R10, R11), the decoder's character classes (spec/42_base32.md R140), decimal digits. -/

namespace Sys2Proof.Machine

/-- `mask(k)` is `2^k - 1` (R13). -/
def maskBits (k : Nat) : Nat := 2 ^ k - 1

/-- A 5-bit group, `x & 0x1F` (R132). -/
def group5 (x : Nat) : BitVec 5 := BitVec.ofNat 5 (x &&& 0x1F)

/-- `ALPHA[v]` (R10) as a character code (R11): 0..25 are `A`..`Z`, 26..31 are `2`..`7`. -/
def alpha (v : BitVec 5) : Byte :=
  if v.toNat < 26 then BitVec.ofNat 8 (0x41 + v.toNat) else BitVec.ofNat 8 (0x32 + (v.toNat - 26))

/-- The decoder's three classes of a character operand (R140). -/
inductive CharClass where
  /-- One of the 32 alphabet codes, with its value `VAL(c)`. -/
  | alphabet (v : BitVec 5)
  /-- The character `=`. -/
  | pad
  /-- Every other 32-bit code. -/
  | invalid
  deriving DecidableEq, Repr

/-- The class of a 32-bit character operand, compared as a whole (R140, R83). -/
def classify (c : CharCode) : CharClass :=
  if 0x41 ≤ c.toNat ∧ c.toNat ≤ 0x5A then .alphabet (BitVec.ofNat 5 (c.toNat - 0x41))
  else if 0x32 ≤ c.toNat ∧ c.toNat ≤ 0x37 then .alphabet (BitVec.ofNat 5 (c.toNat - 0x32 + 26))
  else if c = Config.padChar then .pad
  else .invalid

/-- The character code of decimal digit `d` (R11, R171). -/
def digitChar (d : Nat) : Byte := BitVec.ofNat 8 (0x30 + d)

/-- A character code of the block's output as the 32-bit code the decoder takes (R11, R83). -/
def charOfByte (b : Byte) : CharCode := b.setWidth 32

end Sys2Proof.Machine
end

