-- ==== Sys2Proof/Machine/Base32Decoder.lean ====
section
/-! DEFINITION. The Base32 decoder's commands (spec/42_base32.md R142 to R144). -/

namespace Sys2Proof.Machine

/-- One alphabet value through the decoder (R143): the bytes, and the new `DEC_ACC` and `DEC_N`. -/
def decFeed (acc : BitVec 7) (n : BitVec 3) (v : BitVec 5) : List Byte × BitVec 7 × BitVec 3 :=
  let t := (acc.toNat <<< 5) ||| v.toNat
  let m := n.toNat + 5
  if 8 ≤ m then
    ([BitVec.ofNat 8 ((t >>> (m - 8)) &&& 0xFF)],
      BitVec.ofNat 7 (t &&& maskBits (m - 8)), BitVec.ofNat 3 (m - 8))
  else ([], BitVec.ofNat 7 (t &&& maskBits m), BitVec.ofNat 3 m)

/-- `B32D.CLR` (R142): OK even when the dropped stream had failed. -/
def execB32dClr (s : State) : Result := .next (respond .ok [] (clearDec s))

/-- `B32D.CHAR` (R143), its conditions in the order of R204: failed, stopped, pad, alphabet, invalid. -/
def execB32dChar (c : CharCode) (s : State) : Result :=
  if s.decErr then .next (raise .invalidEncoding s)
  else if s.decStop then .next (respond .ok [] s)
  else
    match classify c with
    | .pad => .next (respond .ok [] (setStop s))
    | .alphabet v =>
      let r := decFeed s.decAcc s.decN v
      .next (respond .ok r.1 (setDec r.2.1 r.2.2 s))
    | .invalid => .next (raise .invalidEncoding (setErr s))

/-- `B32D.FIN` (R144): the verdict, the leftover bits discarded (R148). -/
def execB32dFin (s : State) : Result := .next (respond (decVerdict s) [] (clearDec s))

end Sys2Proof.Machine
end

