-- ==== Sys2Proof/Machine/Base32Encoder.lean ====
section
/-! DEFINITION. The Base32 encoder's commands (spec/42_base32.md R131 to R133). -/

namespace Sys2Proof.Machine

/-- The loop of R132: while `m >= 5`, take the top 5 of the `m` low bits of `t` as one character. `fuel` bounds the
runs; 3 runs are the most any `m <= 15` takes (at most 2 for `ENC_N <= 4`). DEDUCED, safe: on an `ENC_N` of 5 to 7,
which no run reaches, the loop runs as it is written (notes/assumptions/4.md). -/
def encGroups : (fuel : Nat) → (t m : Nat) → (out : List Byte) → List Byte × Nat
  | 0, _, m, out => (out, m)
  | fuel + 1, t, m, out =>
    if 5 ≤ m then encGroups fuel t (m - 5) (out ++ [alpha (group5 (t >>> (m - 5)))])
    else (out, m)

/-- One byte through the encoder (R132): the characters, and the new `ENC_ACC` and `ENC_N`. -/
def encFeed (acc : BitVec 4) (n : BitVec 3) (b : Byte) : List Byte × BitVec 4 × BitVec 3 :=
  let t := (acc.toNat <<< 8) ||| b.toNat
  let r := encGroups 3 t (n.toNat + 8) []
  (r.1, BitVec.ofNat 4 (t &&& maskBits r.2), BitVec.ofNat 3 r.2)

/-- The last character of a stream (R133): the partial group zero-extended on its low-order bits, if there is one. -/
def encFlush (acc : BitVec 4) (n : BitVec 3) : List Byte :=
  if 0 < n.toNat then [alpha (group5 (acc.toNat <<< (5 - n.toNat)))] else []

/-- `B32E.CLR` (R131). -/
def execB32eClr (s : State) : Result := .next (respond .ok [] (setEnc 0 0 s))

/-- `B32E.BYTE` (R132). -/
def execB32eByte (b : Byte) (s : State) : Result :=
  let r := encFeed s.encAcc s.encN b
  .next (respond .ok r.1 (setEnc r.2.1 r.2.2 s))

/-- `B32E.FIN` (R133). -/
def execB32eFin (s : State) : Result :=
  .next (respond .ok (encFlush s.encAcc s.encN) (setEnc 0 0 s))

end Sys2Proof.Machine
end

