-- ==== Sys2Proof/Machine/Counter.lean ====
section
/-! DEFINITION. The counter encoder (spec/41_counter.md). -/

namespace Sys2Proof.Machine

/-- Byte `k` of the counter's encoding is `(n >> (56 - 8k)) & 0xFF` (R110). -/
def counterByte (n : Data) (k : Nat) : Byte := BitVec.ofNat 8 ((n.toNat >>> (56 - 8 * k)) &&& 0xFF)

/-- `intToBytes(n)`: 8 bytes, most significant first (R110). -/
def intToBytes (n : Data) : List Byte :=
  [counterByte n 0, counterByte n 1, counterByte n 2, counterByte n 3,
   counterByte n 4, counterByte n 5, counterByte n 6, counterByte n 7]

/-- `BE64` (R111). -/
def execBe64 (n : Data) (s : State) : Result := .next (respond .ok (intToBytes n) s)

end Sys2Proof.Machine
end

