-- ==== Sys2Proof/Machine/Hotp.lean ====
section
/-! DEFINITION. HOTP dynamic truncation and the code extractor (spec/43_hotp.md). -/

namespace Sys2Proof.Machine

/-- `offset = H[19] & 0x0F` (R170). -/
def dtOffset (h : Digest) : BitVec 4 := BitVec.ofNat 4 ((h[19]).toNat &&& Config.offsetMask)

/-- `H[offset + k]` for k = 0..3, always within `H[0..18]` (R170, R176). -/
def dtByte (h : Digest) (off : BitVec 4) (k : Fin 4) : Nat :=
  (h[off.toNat + k.val]'(by have := off.isLt; have := k.isLt; omega)).toNat

/-- `binary` (R170): four bytes from the offset, big-endian, the top bit masked off. -/
def dtBinary (h : Digest) : BitVec 31 :=
  let off := dtOffset h
  BitVec.ofNat 31
    (((dtByte h off 0 &&& Config.topMask) <<< 24) ||| ((dtByte h off 1 &&& 0xFF) <<< 16) |||
      ((dtByte h off 2 &&& 0xFF) <<< 8) ||| (dtByte h off 3 &&& 0xFF))

/-- `v = binary mod 1000000` (R171). -/
def codeValue (bin : BitVec 31) : Nat := bin.toNat % Config.codeMod

/-- `d_k = (v div 10^(5-k)) mod 10` as a character (R171). -/
def codeDigit (v k : Nat) : Byte := digitChar (v / 10 ^ (5 - k) % 10)

/-- The six characters of a code value, always zero-padded, most significant digit first (R171, R178). -/
def codeChars (v : Nat) : Vector Byte 6 :=
  #v[codeDigit v 0, codeDigit v 1, codeDigit v 2, codeDigit v 3, codeDigit v 4, codeDigit v 5]

/-- The four bytes `HT.TRUNC` emits (R173). -/
def truncBytes (bin : BitVec 31) : List Byte :=
  [(bin.extractLsb' 24 7).setWidth 8, bin.extractLsb' 16 8, bin.extractLsb' 8 8, bin.extractLsb' 0 8]

/-- Truncate the digest buffer into `TR_OFF` and `TR_BIN` (R173, R175). -/
def truncate (s : State) : State := setTr (dtOffset s.dig) (dtBinary s.dig) s

/-- Extract the code of `TR_BIN` into `CODE_VAL` and `CODE_CHR`, and emit its characters (R174, R175). -/
def extractCode (s : State) : State :=
  let v := codeValue s.trBin
  respond .ok (codeChars v).toList (setCode (BitVec.ofNat 20 v) (codeChars v) s)

/-- `HT.DIG` (R172): the index check, then the write. -/
def execHtDig (i b : Byte) (s : State) : Result :=
  if h : i.toNat < 20 then .next (respond .ok [] (setDig i.toNat h b s))
  else .next (raise .illegalOperand s)

/-- `HT.TRUNC` (R173). -/
def execHtTrunc (s : State) : Result := .next (respond .ok (truncBytes (dtBinary s.dig)) (truncate s))

/-- `HT.CODE` (R174). -/
def execHtCode (s : State) : Result := .next (extractCode s)

/-- `HT.HOTP` (R175): truncation, then code extraction from the value just written. -/
def execHtHotp (s : State) : Result := .next (extractCode (truncate s))

end Sys2Proof.Machine
end

