-- ==== Sys2Proof/Machine/System.lean ====
section
/-! DEFINITION. The system commands (spec/40_system.md R102) and the answer to an unassigned opcode (R103). -/

namespace Sys2Proof.Machine

/-- `NOP` (R102). -/
def execNop (s : State) : Result := .next (respond .ok [] s)

/-- A command word whose opcode is unassigned: `raise IllegalCommand`, always (R103, R202). -/
def execUnassigned (s : State) : Result := .next (raise .illegalCommand s)

end Sys2Proof.Machine
end

