-- ==== Sys2Proof/Machine/Dispatch.lean ====
section
/-! DEFINITION. The dispatch of spec/40_system.md R100: one arm per assigned opcode. The unassigned opcodes are the
final arm of R100, in Machine/Port.lean. -/

namespace Sys2Proof.Machine

def exec (i : Instr) (s : State) : Host.Outcome State Fault Refusal :=
  match i with
  | .nop => Sys2Proof.Machine.execNop s
  | .b32eClr => Sys2Proof.Machine.execB32eClr s
  | .b32eByte b => Sys2Proof.Machine.execB32eByte b s
  | .b32eFin => Sys2Proof.Machine.execB32eFin s
  | .b32dClr => Sys2Proof.Machine.execB32dClr s
  | .b32dChar c => Sys2Proof.Machine.execB32dChar c s
  | .b32dFin => Sys2Proof.Machine.execB32dFin s
  | .be64 n => Sys2Proof.Machine.execBe64 n s
  | .htDig idx b => Sys2Proof.Machine.execHtDig idx b s
  | .htTrunc => Sys2Proof.Machine.execHtTrunc s
  | .htCode => Sys2Proof.Machine.execHtCode s
  | .htHotp => Sys2Proof.Machine.execHtHotp s

end Sys2Proof.Machine
end

