-- ==== Sys2Proof/Machine/Port.lean ====
section
/-! DEFINITION. The block's ports: the command port (spec/30_encoding.md R80, spec/40_system.md R100), the read-only
observation port (spec/10_state.md R45), `RST` (spec/70_reset_and_hazards.md R220), and what one action of the host
does (R233). -/

namespace Sys2Proof.Machine

/-- `step(state, OP, DATA)` of R100, from a state that is defined: the twelve assigned opcodes, and R103 for every
other value. The host reaches it through `portCommand` only. -/
def acceptCommand (w : CommandWord) (s : State) : Result :=
  match decode w with
  | .ok i => exec i s
  | .error (.unassignedOpcode _) => execUnassigned s

/-- The command port (R80): the block's step, which does not exist before the first reset (R221: "That case is
refused, not given a value"). Every command of the host, in a host program and in a host procedure, goes through it. -/
def portCommand (w : CommandWord) (s : State) : Result :=
  if s.rstSeen then acceptCommand w s else .refused .beforeFirstReset

/-- A field of a port view: `v` with its bit 0 at bit `lo` (R45). -/
def placed {w : Nat} (lo : Nat) (v : BitVec w) : BitVec 64 := v.setWidth 64 <<< lo

/-- A flag of a port view, one bit at bit `lo` (R45). -/
def placedFlag (lo : Nat) (f : Bool) : BitVec 64 := placed lo (BitVec.ofBool f)

/-- The byte list in a port view, the first byte's bits from bit `top` downward (R45, R64, R65). -/
def placedBytes : (top : Nat) → List Byte → BitVec 64
  | _, [] => 0
  | top, b :: bs => placed (top - 7) b ||| placedBytes (top - 8) bs

/-- The `STATUS` view (R45, selector 0x00). -/
def statusView (s : State) : BitVec 64 :=
  placed 0 (statusCode s.rspSt) ||| placed 4 s.rspCnt ||| placed 8 s.encN ||| placed 12 s.decN |||
    placedFlag 16 s.decStop ||| placedFlag 17 s.decErr

/-- The observation port (R45): the value of selector `sel`. It reads the state and writes nothing. -/
def observe (s : State) (sel : BitVec 8) : BitVec 64 :=
  if sel = 0x00 then statusView s
  else if sel = 0x01 then placedBytes 63 s.rspDat.toList
  else if sel = 0x02 then placed 0 s.encAcc
  else if sel = 0x03 then placed 0 s.decAcc
  else if sel = 0x04 then placed 0 s.trOff
  else if sel = 0x05 then placed 0 s.trBin
  else if sel = 0x06 then placed 0 s.codeVal
  else if sel = 0x07 then placedBytes 47 s.codeChr.toList
  else if sel = 0x08 then placedBytes 63 (s.dig.toList.take 8)
  else if sel = 0x09 then placedBytes 63 ((s.dig.toList.drop 8).take 8)
  else if sel = 0x0A then placedBytes 31 (s.dig.toList.drop 16)
  else 0

/-- The host issues one command: the block executes it and the host sees its response (R233 a, R240). Before the
first reset it is refused (R221). -/
def hostCommand (w : CommandWord) (s : State) : Result :=
  andThen (portCommand w s) fun t => .next (record (.response (responseOf t)) t)

/-- The host reads the observation port: no register changes (R233 b, R45). Before the first reset the registers are
not defined (R221), and the read is refused. DEDUCED, safe (notes/assumptions/2.md). -/
def hostRead (sel : BitVec 8) (s : State) : Result :=
  if s.rstSeen then .next (record (.portValue sel (observe s sel)) s)
  else .refused .beforeFirstReset

/-- The host asserts `RST` (R233 c, R220). -/
def hostReset (s : State) : Result := .next (record .resetDone (applyReset s))

/-- One action of the host (R233). -/
def hostAct (a : HostAction) (s : State) : Result :=
  match a with
  | .command w => hostCommand w s
  | .readPort sel => hostRead sel s
  | .assertRst => hostReset s

/-- The host's next action, or none: then all state persists (spec/60_exceptions.md R213). DEDUCED, safe: a step
with no action left changes nothing (notes/assumptions/3.md). -/
def takeNext (s : State) : Result :=
  match s.pending with
  | [] => .next s
  | a :: rest => hostAct a (setPending rest s)

end Sys2Proof.Machine
end

