-- ==== Sys2Proof/Machine/Step.lean ====
section
/-! DEFINITION. One step of the machine: the host's next action on the block (spec/70_reset_and_hazards.md R233,
R240; spec/20_memory.md R68). The block fetches nothing (spec/10_state.md R31): a command reaches it at the command
port only. -/

namespace Sys2Proof.Machine

/-- One step: the block takes the host's next action. -/
def step (s : State) : Host.Outcome State Fault Refusal := takeNext s

/-- The state in which the host's next action is to issue the command whose bits are `w` as the opcode table numbers
them. A block that was never reset is reset first, since no command runs on it (R221, R222). DEDUCED, safe
(notes/assumptions/9.md). -/
def State.withFetchWord (s : State) (nbits w : Nat) : State := present (tableCommand nbits w) s

end Sys2Proof.Machine
end

