-- ==== Sys2Proof/Machine/Base32Functions.lean ====
section
/-! DEFINITION. The whole-sequence Base32 functions of the source, which the streaming commands realise
(spec/42_base32.md R130, R141). They are normative and independent of the registers. -/

namespace Sys2Proof.Machine

/-- The one error of the codec (spec/00_scope.md R17, spec/60_exceptions.md R201). -/
inductive InvalidEncodingError where
  | invalidEncoding
  deriving DecidableEq, Repr

/-- The eight bits of a byte, most significant first (R14). -/
def bitsOf (b : Byte) : List Bool :=
  [b.getLsbD 7, b.getLsbD 6, b.getLsbD 5, b.getLsbD 4, b.getLsbD 3, b.getLsbD 2, b.getLsbD 1, b.getLsbD 0]

/-- The bit string of a byte list (R14). -/
def bitString (bs : List Byte) : List Bool := bs.flatMap bitsOf

/-- A bit list as a number, first bit most significant (R130). -/
def bitsValue (bits : List Bool) : Nat := bits.foldl (fun a b => 2 * a + b.toNat) 0

/-- `ceil(a / 5)` (R130). -/
def ceilDiv5 (a : Nat) : Nat := (a + 4) / 5

/-- `encodeBase32` (R130): the bit string, zero-filled to `G` groups of 5, each group looked up. -/
def encodeBase32 (bs : List Byte) : List Byte :=
  let bits := bitString bs
  let groups := ceilDiv5 bits.length
  let filled := bits ++ List.replicate (5 * groups - bits.length) false
  (List.range groups).map fun j => alpha (BitVec.ofNat 5 (bitsValue ((filled.drop (5 * j)).take 5)))

/-- The loop of `decodeBase32` (R141), with its three variables. -/
def decodeLoop : List CharCode → (acc n : Nat) → (out : List Byte) → Except InvalidEncodingError (List Byte)
  | [], _, _, out => .ok out
  | c :: cs, acc, n, out =>
    match classify c with
    | .pad => .ok out
    | .invalid => .error .invalidEncoding
    | .alphabet v =>
      let t := (acc <<< 5) ||| v.toNat
      if 8 ≤ n + 5 then
        decodeLoop cs (t &&& maskBits (n - 3)) (n - 3) (out ++ [BitVec.ofNat 8 ((t >>> (n - 3)) &&& 0xFF)])
      else decodeLoop cs t (n + 5) out

/-- `decodeBase32` (R141). -/
def decodeBase32 (cs : List CharCode) : Except InvalidEncodingError (List Byte) := decodeLoop cs 0 0 []

end Sys2Proof.Machine
end

