-- ==== Sys2Proof/Machine/HostProcedures.lean ====
section
/-! DEFINITION. The host's side: the pseudo-commands (spec/30_encoding.md R87) and the host procedures around the block
(spec/70_reset_and_hazards.md R235 to R239, spec/41_counter.md R112). They drive the block through its command port,
which refuses them before the first reset (R221), and are no part of the block. HMAC-SHA1 is the free function
`Config.hmacSha1` (notes/assumptions/6.md). -/

namespace Sys2Proof.Machine

/-- `B32E.BYTES b0, ..., b(n-1)` (R87). -/
def pseudoBytes (bs : List Byte) : List Instr := .b32eClr :: bs.map .b32eByte ++ [.b32eFin]

/-- `B32D.STR "s"` (R87). -/
def pseudoStr (cs : List CharCode) : List Instr := .b32dClr :: cs.map .b32dChar ++ [.b32dFin]

/-- `HT.DIG k, hk` for the listed bytes, with increasing index from `k` (R87). -/
def digWrites : (k : Nat) → List Byte → List Instr
  | _, [] => []
  | k, h :: hs => .htDig (BitVec.ofNat 8 k) h :: digWrites (k + 1) hs

/-- `HT.LOAD h0, ..., h19` (R87). -/
def pseudoLoad (h : Digest) : List Instr := digWrites 0 h.toList

/-- The host issues the word the assembler writes for `i` at the command port (R86, R100); before the first reset
it is refused (R221), and so is every procedure below that issues it. -/
def issue (i : Instr) (s : State) : Result := portCommand (encode i) s

/-- The host issues a list of commands in order and reads every response (R226, R240). -/
def issueAll : List Instr → State → Host.Outcome (List Response × State) Fault Refusal
  | [], s => .next ([], s)
  | i :: is, s =>
    andThen (issue i s) fun t => andThen (issueAll is t) fun r => .next (responseOf t :: r.1, r.2)

/-- The bytes a list of responses carries, concatenated in order. -/
def emitted (rs : List Response) : List Byte := rs.flatMap (·.bytes)

/-- The status of the last response, `OK` if there is none. -/
def lastStatus (rs : List Response) : Status :=
  match rs.getLast? with
  | some r => r.status
  | none => .ok

/-- The host encodes a byte list with the block (R134, R234 H-3). -/
def hostEncode (bs : List Byte) (s : State) : Host.Outcome (List Byte × State) Fault Refusal :=
  andThen (issueAll (pseudoBytes bs) s) fun r => .next (emitted r.1, r.2)

/-- The host decodes a string with the block, and discards the bytes unless the verdict is `OK` (R145, R151, R225). -/
def hostDecode (cs : List CharCode) (s : State) :
    Host.Outcome (Except InvalidEncodingError (List Byte) × State) Fault Refusal :=
  andThen (issueAll (pseudoStr cs) s) fun r =>
    .next (if lastStatus r.1 = .ok then .ok (emitted r.1) else .error .invalidEncoding, r.2)

/-- An integer counter as the operand of `BE64`: its value mod 2^64 (R112). -/
def counterWord (k : Int) : Data := BitVec.ofInt 64 k

/-- `toUnixTime(timeMs) = timeMs / 1000`, exact, no flooring (R236). -/
def toUnixTime (timeMs : Int) : Rat := (timeMs : Rat) / 1000

/-- `toCounter(t) = floor(t / 30)`, toward minus infinity (R236, R9 `TIME_STEP`). -/
def toCounter (t : Rat) : Int := (t / (Config.timeStep : Rat)).floor

/-- The host's counter of a timestamp in milliseconds (R236). -/
def counterOfMs (timeMs : Int) : Int := toCounter (toUnixTime timeMs)

/-- `generateCode(key, c)` (R235, R237): `BE64 c`, HMAC-SHA1 of its 8 bytes outside the block, `HT.LOAD`, `HT.HOTP`. -/
def generateCode (key : List Byte) (c : Int) (s : State) : Host.Outcome (List Byte × State) Fault Refusal :=
  andThen (issue (.be64 (counterWord c)) s) fun t =>
    andThen (issueAll (pseudoLoad (Config.hmacSha1 key (responseOf t).bytes)) t) fun r =>
      andThen (issue .htHotp r.2) fun u => .next ((responseOf u).bytes, u)

/-- A secret as `generateTotp` and `verifyTotp` take it (R238). -/
inductive Secret where
  | base32 (cs : List CharCode)
  | bytes (key : List Byte)
  deriving DecidableEq, Repr

/-- The key of a secret: decoded on the block if it is given as Base32 (R238 steps 1 and 2). DEDUCED, unsafe for
`verifyTotp`, whose rule R239 does not repeat it (notes/assumptions/11.md). -/
def secretKey (secret : Secret) (s : State) :
    Host.Outcome (Except InvalidEncodingError (List Byte) × State) Fault Refusal :=
  match secret with
  | .base32 cs => hostDecode cs s
  | .bytes key => .next (.ok key, s)

/-- `generateTotp` (R238). -/
def generateTotp (secret : Secret) (timeMs : Int) (s : State) :
    Host.Outcome (Except InvalidEncodingError (List Byte) × State) Fault Refusal :=
  andThen (secretKey secret s) fun r =>
    match r.1 with
    | .error e => .next (.error e, r.2)
    | .ok key => andThen (generateCode key (counterOfMs timeMs) r.2) fun g => .next (.ok g.1, g.2)

/-- Whether the code of any listed counter equals the token, character by character (R239): every candidate is
tried, in order (C3: stopping at the first match gives the same answer). -/
def anyMatches (token : List CharCode) (key : List Byte) :
    List Int → State → Host.Outcome (Bool × State) Fault Refusal
  | [], s => .next (false, s)
  | c :: cs, s =>
    andThen (generateCode key c s) fun g =>
      andThen (anyMatches token key cs g.2) fun r =>
        .next (decide (g.1.map charOfByte = token) || r.1, r.2)

/-- The counters `c - W` to `c + W` in increasing order (R239). -/
def windowCounters (c : Int) (w : Nat) : List Int := (List.range (2 * w + 1)).map fun j => c - w + j

/-- `verifyTotp` (R239), its window defaulting to R9's 3. -/
def verifyTotp (token : List CharCode) (secret : Secret) (timeMs : Int) (s : State)
    (window : Nat := Config.window) : Host.Outcome (Except InvalidEncodingError Bool × State) Fault Refusal :=
  andThen (secretKey secret s) fun r =>
    match r.1 with
    | .error e => .next (.error e, r.2)
    | .ok key =>
      andThen (anyMatches token key (windowCounters (counterOfMs timeMs) window) r.2) fun g =>
        .next (.ok g.1, g.2)

end Sys2Proof.Machine
end

