-- ==== Sys2Proof/Machine/Assembler.lean ====
section
/-! DEFINITION. The command assembly text (spec/30_encoding.md R86) and its pseudo-commands (R87), as a function from
a line's characters to the commands it stands for, and the `OP:DATA` notation of a command word. It is a host tool and
no part of the block. What R86 leaves open of the text: DESIGN CHOICE, safe (notes/assumptions/7.md); codes of
characters R11 does not list: PRESUMED, unsafe (notes/assumptions/8.md). -/

namespace Sys2Proof.Machine

/-- Why a line is no line of the assembly text. -/
inductive AsmError where
  /-- The mnemonic is none of R86 and R87, or its operands are not of the kind and number it takes. -/
  | badLine
  /-- A number does not fit its operand. -/
  | outOfRange
  deriving DecidableEq, Repr

/-- One operand as written (R86). -/
inductive AsmOperand where
  /-- A decimal or hexadecimal number. -/
  | number (v : Int)
  /-- A character in single quotes. -/
  | character (c : CharCode)
  /-- A string in double quotes (R87). -/
  | text (cs : List CharCode)
  deriving DecidableEq, Repr

/-- The code of a character (R11); of one R11 does not list, its Unicode code point. PRESUMED, unsafe
(notes/assumptions/8.md). -/
def charCode (c : Char) : CharCode := BitVec.ofNat 32 c.toNat

/-- Space or tab. -/
def isBlank (c : Char) : Bool := c == ' ' || c == '\t'

/-- The characters without the blanks at both ends. -/
def trimBlanks (cs : List Char) : List Char := ((cs.dropWhile isBlank).reverse.dropWhile isBlank).reverse

/-- The line without its comment, which starts at a `;` outside quotes (R86). `quoted`: inside double quotes. -/
def stripComment : (quoted : Bool) → List Char → List Char
  | false, '\'' :: x :: '\'' :: cs => '\'' :: x :: '\'' :: stripComment false cs
  | false, ';' :: _ => []
  | false, '"' :: cs => '"' :: stripComment true cs
  | true, '"' :: cs => '"' :: stripComment false cs
  | q, c :: cs => c :: stripComment q cs
  | _, [] => []

/-- Put a character before the first of the parts. -/
def consFirst (c : Char) : List (List Char) → List (List Char)
  | [] => [[c]]
  | p :: ps => (c :: p) :: ps

/-- The operand text split at the commas outside quotes (R86). -/
def splitCommas : (quoted : Bool) → List Char → List (List Char)
  | false, '\'' :: x :: '\'' :: cs => consFirst '\'' (consFirst x (consFirst '\'' (splitCommas false cs)))
  | false, ',' :: cs => [] :: splitCommas false cs
  | false, '"' :: cs => consFirst '"' (splitCommas true cs)
  | true, '"' :: cs => consFirst '"' (splitCommas false cs)
  | q, c :: cs => consFirst c (splitCommas q cs)
  | _, [] => [[]]

/-- The value of a digit in base 16 or less. -/
def digitValue (base : Nat) (c : Char) : Option Nat :=
  let n := c.toNat
  let d := if 0x30 ≤ n ∧ n ≤ 0x39 then n - 0x30
    else if 0x41 ≤ n ∧ n ≤ 0x46 then n - 0x41 + 10
    else if 0x61 ≤ n ∧ n ≤ 0x66 then n - 0x61 + 10
    else 16
  if d < base then some d else none

/-- The value of digits in a base, most significant first. -/
def digitsValue (base : Nat) : (acc : Nat) → List Char → Option Nat
  | acc, [] => some acc
  | acc, c :: cs =>
    match digitValue base c with
    | some d => digitsValue base (acc * base + d) cs
    | none => none

/-- A number: decimal, or hexadecimal with a `0x` prefix, or a negative decimal (R86). -/
def parseNumber : List Char → Option Int
  | '0' :: 'x' :: c :: cs => (digitsValue 16 0 (c :: cs)).map Int.ofNat
  | '-' :: c :: cs => (digitsValue 10 0 (c :: cs)).map fun n => -Int.ofNat n
  | c :: cs => (digitsValue 10 0 (c :: cs)).map Int.ofNat
  | [] => none

/-- One operand. -/
def parseOperand (cs : List Char) : Option AsmOperand :=
  match trimBlanks cs with
  | ['\'', x, '\''] => some (.character (charCode x))
  | '"' :: rest =>
    match rest.reverse with
    | '"' :: inner => if inner.contains '"' then none else some (.text (inner.reverse.map charCode))
    | _ => none
  | other => (parseNumber other).map .number

/-- All operands of a line; no operand text is no operand. -/
def parseOperands (cs : List Char) : Option (List AsmOperand) :=
  if (trimBlanks cs).isEmpty then some [] else (splitCommas false cs).mapM parseOperand

/-- A `bits`-wide number operand (R86). -/
def immediate (bits : Nat) (v : Int) : Except AsmError (BitVec bits) :=
  if WellFormed.immediate bits v then .ok (BitVec.ofInt bits v) else .error .outOfRange

/-- The number operands of `B32E.BYTES` and `HT.LOAD`, each a byte. -/
def byteOperands : List AsmOperand → Except AsmError (List Byte)
  | [] => .ok []
  | .number v :: rest =>
    match immediate 8 v, byteOperands rest with
    | .ok b, .ok bs => .ok (b :: bs)
    | .error e, _ => .error e
    | _, .error e => .error e
  | _ :: _ => .error .badLine

/-- The commands of one mnemonic with its operands (R86, R87). -/
def assembleCommand (mnemonic : String) (ops : List AsmOperand) : Except AsmError (List Instr) :=
  match mnemonic, ops with
  | "NOP", [] => .ok [.nop]
  | "B32E.CLR", [] => .ok [.b32eClr]
  | "B32E.BYTE", [.number v] => (immediate 8 v).map fun b => [.b32eByte b]
  | "B32E.FIN", [] => .ok [.b32eFin]
  | "B32D.CLR", [] => .ok [.b32dClr]
  | "B32D.CHAR", [.number v] => (immediate 32 v).map fun c => [.b32dChar c]
  | "B32D.CHAR", [.character c] => .ok [.b32dChar c]
  | "B32D.FIN", [] => .ok [.b32dFin]
  | "BE64", [.number v] =>
    if WellFormed.immediate64 v then .ok [.be64 (counterWord v)] else .error .outOfRange
  | "HT.DIG", [.number i, .number v] =>
    match immediate 8 i, immediate 8 v with
    | .ok i, .ok b => .ok [.htDig i b]
    | .error e, _ => .error e
    | _, .error e => .error e
  | "HT.TRUNC", [] => .ok [.htTrunc]
  | "HT.CODE", [] => .ok [.htCode]
  | "HT.HOTP", [] => .ok [.htHotp]
  | "B32E.BYTES", bs => (byteOperands bs).map pseudoBytes
  | "B32D.STR", [.text cs] => .ok (pseudoStr cs)
  | "HT.LOAD", hs =>
    match byteOperands hs with
    | .ok bs => if WellFormed.digestList bs then .ok (digWrites 0 bs) else .error .badLine
    | .error e => .error e
  | _, _ => .error .badLine

/-- One line of the text: comment off, mnemonic up to the first blank, then the operands (R86). One line is one
command and does not run on: a line that ends in a comma is refused as `badLine`. R86 says "one command per line" and
program P3 of spec/95_test_vectors.md writes one HT.LOAD over two lines, so whether a command may run on is left open.
DESIGN CHOICE, safe (notes/assumptions/7.md). -/
def assembleLine (line : List Char) : Except AsmError (List Instr) :=
  let cs := trimBlanks (stripComment false line)
  if cs.isEmpty then .ok []
  else
    match parseOperands (cs.dropWhile fun c => !isBlank c) with
    | some ops => assembleCommand (String.ofList (cs.takeWhile fun c => !isBlank c)) ops
    | none => .error .badLine

/-- A hexadecimal digit as the notation writes it (R86). -/
def hexChar (d : Nat) : Char := if d < 10 then Char.ofNat (0x30 + d) else Char.ofNat (0x41 + (d - 10))

/-- The lowest `k` hexadecimal digits of a number, most significant first. -/
def hexDigits : (k : Nat) → Nat → List Char
  | 0, _ => []
  | k + 1, n => hexDigits k (n / 16) ++ [hexChar (n % 16)]

/-- A command word in the notation `OP:DATA` (R86). -/
def wordText (w : CommandWord) : List Char :=
  hexDigits 2 (opOf w).toNat ++ ':' :: hexDigits 16 (dataOf w).toNat

/-- A command word read from the notation `OP:DATA`, where both numbers fit (R86, R80). -/
def parseWord (cs : List Char) : Option CommandWord :=
  match cs.dropWhile (· != ':') with
  | ':' :: c :: rest =>
    match cs.takeWhile (· != ':') with
    | [] => none
    | op =>
      match digitsValue 16 0 op, digitsValue 16 0 (c :: rest) with
      | some o, some d => commandOfRaw o d
      | _, _ => none
  | _ => none

end Sys2Proof.Machine
end

