-- ==== Sys2Proof/Safety.lean ====
section
/-! DEFINITION. The terms the statements use: the invariants of spec/10_state.md R41, which part of the state a
command leaves as it was (R32, spec/40_system.md R104), and what the response registers hold after a command
(spec/40_system.md R101). -/

namespace Sys2Proof.Machine

/-- The twelve opcodes of R82, written out for the statements. -/
abbrev assignedOpcodes : List (BitVec 8) :=
  [0x00, 0x10, 0x11, 0x12, 0x20, 0x21, 0x22, 0x30, 0x40, 0x41, 0x42, 0x43]

/-- The bits of `DATA` that a command with this opcode reads: R81's fields for R82's format column. -/
abbrev readMask (op : BitVec 8) : Data :=
  if op = 0x11 then 0xFF else if op = 0x21 then 0xFFFFFFFF
  else if op = 0x30 then 0xFFFFFFFFFFFFFFFF else if op = 0x40 then 0xFFFF else 0

/-- R41 (1): the encoder's residual. -/
abbrev EncInv (s : State) : Prop := s.encAcc.toNat < 2 ^ s.encN.toNat ∧ s.encN.toNat ≤ 4

/-- R41 (2): the decoder's residual. -/
abbrev DecInv (s : State) : Prop := s.decAcc.toNat < 2 ^ s.decN.toNat ∧ s.decN.toNat ≤ 7

/-- R41 (3): a stream has not both stopped and failed. -/
abbrev FlagInv (s : State) : Prop := ¬(s.decStop = true ∧ s.decErr = true)

/-- R41 (4): the code value and its six digits agree. -/
abbrev CodeInv (s : State) : Prop :=
  s.codeVal.toNat ≤ 999999 ∧
    ∀ k : Fin 6, (s.codeChr[k]).toNat = 0x30 + s.codeVal.toNat / 10 ^ (5 - k.val) % 10

/-- R41 (5): the response registers. -/
abbrev RspInv (s : State) : Prop :=
  s.rspCnt.toNat ≤ 8 ∧ ∀ k : Fin 8, s.rspCnt.toNat ≤ k.val → s.rspDat[k] = 0

/-- R41 (6): the truncation registers. -/
abbrev TrInv (s : State) : Prop := s.trOff.toNat ≤ 15 ∧ s.trBin.toNat < 2 ^ 31

/-- The invariants of R41 together. -/
abbrev StateInv (s : State) : Prop :=
  EncInv s ∧ DecInv s ∧ FlagInv s ∧ CodeInv s ∧ RspInv s ∧ TrInv s

/-- The encoder's registers are as they were. -/
abbrev EncSame (s t : State) : Prop := t.encAcc = s.encAcc ∧ t.encN = s.encN

/-- The decoder's registers are as they were. -/
abbrev DecSame (s t : State) : Prop :=
  t.decAcc = s.decAcc ∧ t.decN = s.decN ∧ t.decStop = s.decStop ∧ t.decErr = s.decErr

/-- The digest buffer is as it was. -/
abbrev DigSame (s t : State) : Prop := t.dig = s.dig

/-- The truncation registers are as they were. -/
abbrev TrSame (s t : State) : Prop := t.trOff = s.trOff ∧ t.trBin = s.trBin

/-- The code registers are as they were. -/
abbrev CodeSame (s t : State) : Prop := t.codeVal = s.codeVal ∧ t.codeChr = s.codeChr

/-- The host's side is as it was: what it will do, what it has seen, and that `RST` was asserted. -/
abbrev HostSame (s t : State) : Prop :=
  t.pending = s.pending ∧ t.seen = s.seen ∧ t.rstSeen = s.rstSeen

/-- The registers of the truncation unit and the code extractor are as they were. -/
abbrev HotpSame (s t : State) : Prop := DigSame s t ∧ TrSame s t ∧ CodeSame s t

/-- Every register but the response registers, and the host's side, is as it was. -/
abbrev UnitsSame (s t : State) : Prop := EncSame s t ∧ DecSame s t ∧ HotpSame s t ∧ HostSame s t

/-- The response registers hold the status `st` and the bytes `out`, in order, with 0 behind them (R101). -/
abbrev Answers (t : State) (st : Status) (out : List Byte) : Prop :=
  t.rspSt = st ∧ t.rspCnt.toNat = out.length ∧ ∀ k : Fin 8, t.rspDat[k] = out.getD k.val 0

/-- Two states hold the same response. -/
abbrev RspSame (s t : State) : Prop :=
  t.rspSt = s.rspSt ∧ t.rspCnt = s.rspCnt ∧ t.rspDat = s.rspDat

/-- Two states agree on all that a unit's commands may read (R104): its own registers. -/
abbrev UnitAgrees (u : BlockUnit) (s t : State) : Prop :=
  match u with
  | .system => True
  | .encoder => EncSame s t
  | .decoder => DecSame s t
  | .counter => True
  | .hotp => HotpSame s t

/-- Byte `i` of the digest buffer as a number, for the statements that compute with `H[i]` (R170). -/
abbrev digNat (s : State) (i : Nat) : Nat := (s.dig.toList.getD i 0).toNat

/-- The six digit characters of a code value, most significant first, written out (R171). -/
abbrev sixDigits (v : Nat) : List Byte :=
  [BitVec.ofNat 8 (48 + v / 100000 % 10), BitVec.ofNat 8 (48 + v / 10000 % 10),
   BitVec.ofNat 8 (48 + v / 1000 % 10), BitVec.ofNat 8 (48 + v / 100 % 10),
   BitVec.ofNat 8 (48 + v / 10 % 10), BitVec.ofNat 8 (48 + v % 10)]

/-- The code of a digest as the whole functions give it, `CODE(DT(H).binary).chars` (R179). -/
abbrev digestCode (h : Digest) : List Byte := (codeChars (codeValue (dtBinary h))).toList

/-- The responses of one unit's commands in a list of commands and their responses. -/
abbrev responsesOf (u : BlockUnit) (is : List Instr) (rs : List Response) : List Response :=
  ((is.zip rs).filter fun p => p.1.unit == u).map (·.2)

/-- A run the host may rely on (R41): a step from it answers a next state with the invariants. -/
abbrev SafeStep (s : State) : Prop := ∃ t, step s = .next t ∧ StateInv t

end Sys2Proof.Machine
end

