-- ==== Sys2Proof/Certificates/Slice0/Obligations.lean ====
section
/-! DEFINITION. The statements for the provers, each from the numbered rules of spec/. -/

open Sys2Proof Sys2Proof.Machine

/-! ## The command word -/

/-- Every instruction decodes back from its encoding, with every operand at every value (R80, R81, R82). -/
def Obligations.DecodeOfEncode : Prop :=
  ∀ i : Instr, decode (encode i) = .ok i

/-- A word that decodes to an instruction is that instruction's encoding once the bits R84 calls ignored are cleared:
the decoder confuses no two words that differ in a bit that is read. -/
def Obligations.EncodeOfDecode : Prop :=
  ∀ (w : CommandWord) (i : Instr), decode w = .ok i →
    encode i = commandWord (opOf w) (dataOf w &&& readMask (opOf w))

/-- The decoder rejects exactly the 244 opcodes outside the map, and names the opcode (R85). -/
def Obligations.DecodeRejectsUnassigned : Prop :=
  (∀ (w : CommandWord) (op : BitVec 8),
    decode w = .error (.unassignedOpcode op) ↔ op = opOf w ∧ opOf w ∉ assignedOpcodes) ∧
  ((List.range 256).filter fun n => decide (BitVec.ofNat 8 n ∉ assignedOpcodes)).length = 244

/-- A few command words of spec/95_test_vectors.md decode to the commands they are written for. A sanity statement. -/
def Obligations.DecodeWrittenWords : Prop :=
  decode 0x00FFFFFFFFFFFFFFFF = .ok .nop ∧ decode 0x11FFFFFFFFFFFFFF01 = .ok (.b32eByte 0x01) ∧
  decode 0x210000000100000041 = .ok (.b32dChar 0x41) ∧ decode 0x30000000000001E240 = .ok (.be64 123456) ∧
  decode 0x40000000000000135A = .ok (.htDig 19 0x5A) ∧ decode 0x430000000000000000 = .ok .htHotp ∧
  decode 0x130000000000000000 = .error (.unassignedOpcode 0x13)

/-- R84: the ignored bits of `DATA` change no result, in any state, for any opcode. -/
def Obligations.IgnoredBitsChangeNothing : Prop :=
  ∀ (s : State) (op : BitVec 8) (d d' : Data), d &&& readMask op = d' &&& readMask op →
    acceptCommand (commandWord op d) s = acceptCommand (commandWord op d') s

/-! ## The step -/

/-- R100: one command gives exactly one next state from every state, by the opcode map, and R103's for every other
opcode; nothing faults or refuses. -/
def Obligations.CommandStepIsTotal : Prop :=
  (∀ (w : CommandWord) (s : State), ∃ t, acceptCommand w s = .next t) ∧
  ∀ (d : Data) (s : State),
    acceptCommand (commandWord 0x00 d) s = exec .nop s ∧
    acceptCommand (commandWord 0x10 d) s = exec .b32eClr s ∧
    acceptCommand (commandWord 0x11 d) s = exec (.b32eByte (d.extractLsb' 0 8)) s ∧
    acceptCommand (commandWord 0x12 d) s = exec .b32eFin s ∧
    acceptCommand (commandWord 0x20 d) s = exec .b32dClr s ∧
    acceptCommand (commandWord 0x21 d) s = exec (.b32dChar (d.extractLsb' 0 32)) s ∧
    acceptCommand (commandWord 0x22 d) s = exec .b32dFin s ∧
    acceptCommand (commandWord 0x30 d) s = exec (.be64 d) s ∧
    acceptCommand (commandWord 0x40 d) s = exec (.htDig (d.extractLsb' 8 8) (d.extractLsb' 0 8)) s ∧
    acceptCommand (commandWord 0x41 d) s = exec .htTrunc s ∧
    acceptCommand (commandWord 0x42 d) s = exec .htCode s ∧
    acceptCommand (commandWord 0x43 d) s = exec .htHotp s ∧
    ∀ op, op ∉ assignedOpcodes → acceptCommand (commandWord op d) s = .next (respond .illegalCommand [] s)

/-- R101: every command answers a byte list of at most 8 bytes, with its length in `RSP_CNT`, its bytes in `RSP_DAT`
and 0 behind them; and no response survives it: whatever `RSP_ST`, `RSP_CNT` and `RSP_DAT` held before, the whole next
state, its three response registers included, is the same. -/
def Obligations.EveryCommandResponds : Prop :=
  (∀ (w : CommandWord) (s : State), ∃ t out, acceptCommand w s = .next t ∧ out.length ≤ 8 ∧ Answers t t.rspSt out) ∧
  ∀ (w : CommandWord) (s : State) (st : Status) (cnt : BitVec 4) (dat : Vector Byte 8),
    acceptCommand w { s with rspSt := st, rspCnt := cnt, rspDat := dat } = acceptCommand w s

/-- The step runs the decoded instruction (R100): a command that the host issues next is executed, or answered with
ILLEGAL_COMMAND if its opcode is unassigned. That the host's actions stand in `pending`, from which the step takes the
command, and that its response is appended to `seen`, is the model's choice (log entry 1), and so is `rstSeen` (log
entry 2): the rules give a command and its response, in order (R68, R240), and no place for them. -/
def Obligations.StepRunsDecodedInstruction : Prop :=
  ∀ (s : State) (w : CommandWord) (rest : List HostAction),
    s.rstSeen = true → s.pending = .command w :: rest →
    (∀ i t, decode w = .ok i → exec i { s with pending := rest } = .next t →
      step s = .next { t with
        seen := t.seen ++ [.response ⟨t.rspSt, t.rspDat.toList.take t.rspCnt.toNat⟩] }) ∧
    (∀ e, decode w = .error e →
      step s = .next { respond .illegalCommand [] { s with pending := rest } with
        seen := s.seen ++ [.response ⟨.illegalCommand, []⟩] })

/-- After the first reset every step answers a next state, since every command does (R100), with the invariants of R41
if they held. That the reset is remembered in `rstSeen` and stays so is the model's choice (log entry 2); that a step
with no action of the host left answers too is its inference (log entry 3, DEDUCED from R213); where the actions stand
is its choice (log entry 1). -/
def Obligations.StepAnswersAfterReset : Prop :=
  ∀ s : State, s.rstSeen = true → (∃ t, step s = .next t ∧ t.rstSeen = true) ∧ (StateInv s → SafeStep s)

/-- A list of host actions that starts with `RST`, or comes after one (R222), runs to its end, one step an action;
the host has then seen one thing per action, a response for each command, nothing is left (R240), and the invariants
of R41 still hold. Where the host's actions and what it has seen stand is the model's choice (log entry 1). -/
def Obligations.HostActionsRunToTheirEnd : Prop :=
  ∀ (acts : List HostAction) (s : State), s.rstSeen = true ∨ acts.head? = some .assertRst → s.pending = acts →
    ∃ (t : State) (new : List HostSeen), core.run acts.length s = .next t ∧ t.pending = [] ∧
      t.seen = s.seen ++ new ∧ new.length = acts.length ∧ (StateInv s → StateInv t) ∧
      ∀ (k : Nat) (w : CommandWord), acts[k]? = some (HostAction.command w) →
        ∃ r, new[k]? = some (HostSeen.response r)

/-- With no action of the host left, the state persists (R213; the idle step is the model's choice, log entry 3). -/
def Obligations.IdleStepKeepsState : Prop :=
  ∀ s : State, s.pending = [] → step s = .next s

/-- R221: a command before the first reset is refused by name, in a host program and in every host procedure, and a
command placed by `withFetchWord` on a block never reset runs on a block that has been reset. That the reset is
remembered in `rstSeen` and that a port read is refused as well is the model's choice (log entry 2); `RST` is not
refused. How a command is placed is the model's (log entry 9). -/
def Obligations.BeforeFirstResetRefused : Prop :=
  ∀ s : State, s.rstSeen = false →
    (∀ w rest, s.pending = .command w :: rest → step s = .refused .beforeFirstReset) ∧
    (∀ sel rest, s.pending = .readPort sel :: rest → step s = .refused .beforeFirstReset) ∧
    (∀ rest, s.pending = .assertRst :: rest → ∃ t, step s = .next t ∧ t.rstSeen = true) ∧
    (∀ i, issue i s = .refused .beforeFirstReset) ∧
    (∀ i is, issueAll (i :: is) s = .refused .beforeFirstReset) ∧
    (∀ bs, hostEncode bs s = .refused .beforeFirstReset) ∧
    (∀ cs, hostDecode cs s = .refused .beforeFirstReset) ∧
    (∀ key c, generateCode key c s = .refused .beforeFirstReset) ∧
    (∀ secret ms, generateTotp secret ms s = .refused .beforeFirstReset) ∧
    (∀ token secret ms w, verifyTotp token secret ms s w = .refused .beforeFirstReset) ∧
    ∀ nbits w, s.withFetchWord nbits w =
      { State.reset with pending := .command (tableCommand nbits w) :: s.pending, seen := s.seen }

/-! ## Reset and the invariants -/

/-- R220: `RST` sets every register to its reset value, from any state and in the middle of any stream, and so does
`State.reset`. -/
def Obligations.ResetSetsEveryRegister : Prop :=
  ∀ t : State,
    (t = State.reset ∨ ∃ s rest, s.pending = HostAction.assertRst :: rest ∧ step s = .next t) →
    t.encAcc = 0 ∧ t.encN = 0 ∧ t.decAcc = 0 ∧ t.decN = 0 ∧ t.decStop = false ∧ t.decErr = false ∧
    (∀ k : Fin 20, t.dig[k] = 0) ∧ t.trOff = 0 ∧ t.trBin = 0 ∧ t.codeVal = 0 ∧
    (∀ k : Fin 6, t.codeChr[k] = 0x30) ∧ t.rspSt = .ok ∧ t.rspCnt = 0 ∧ ∀ k : Fin 8, t.rspDat[k] = 0

/-- `RST` answers from every state, before the first reset too (R220, R233). That the host's remaining actions stay in
`pending` and the reset is appended to `seen` is the model's choice (log entry 1), and that it is remembered in
`rstSeen` is too (log entry 2). -/
def Obligations.ResetStepAnswers : Prop :=
  ∀ (s : State) (rest : List HostAction), s.pending = .assertRst :: rest →
    ∃ t, step s = .next t ∧ t.pending = rest ∧ t.seen = s.seen ++ [.resetDone] ∧ t.rstSeen = true

/-- The reset state has the invariants of R41. -/
def Obligations.ResetHasInvariants : Prop := StateInv State.reset

/-- Every step keeps the invariants of R41, from every state that has them. -/
def Obligations.StepKeepsInvariants : Prop :=
  ∀ s t : State, StateInv s → step s = .next t → StateInv t

/-! ## The system commands -/

/-- R102. -/
def Obligations.NopAnswersNothing : Prop :=
  ∀ (s : State) (d : Data), ∃ t, exec .nop s = .next t ∧ acceptCommand (commandWord 0x00 d) s = .next t ∧
    Answers t .ok [] ∧ UnitsSame s t

/-- R103, R202: an unassigned opcode changes the response registers only, whatever `DATA` holds. -/
def Obligations.UnassignedOpcodeAnswersIllegal : Prop :=
  ∀ (s : State) (op : BitVec 8) (d : Data), op ∉ assignedOpcodes →
    ∃ t, acceptCommand (commandWord op d) s = .next t ∧ Answers t .illegalCommand [] ∧ UnitsSame s t

/-! ## The counter encoder -/

/-- R111 with R110: the eight bytes of the operand, most significant first. -/
def Obligations.Be64EmitsBigEndian : Prop :=
  ∀ (s : State) (n : Data), ∃ t, exec (.be64 n) s = .next t ∧ acceptCommand (commandWord 0x30 n) s = .next t ∧
    Answers t .ok [n.extractLsb' 56 8, n.extractLsb' 48 8, n.extractLsb' 40 8, n.extractLsb' 32 8,
      n.extractLsb' 24 8, n.extractLsb' 16 8, n.extractLsb' 8 8, n.extractLsb' 0 8] ∧ UnitsSame s t

/-- R113 (a) to (e), which the spec marks "[derived: from rule R110]". -/
def Obligations.CounterBytesBijection : Prop :=
  (∀ n m : Data, intToBytes n = intToBytes m → n = m) ∧
  (∀ n : Data, (intToBytes n).length = 8) ∧
  (∀ l : List Byte, l.length = 8 → ∃ n, intToBytes n = l) ∧
  (∀ (n : Data) (b0 b1 b2 b3 b4 b5 b6 b7 : Byte), intToBytes n = [b0, b1, b2, b3, b4, b5, b6, b7] →
    n.toNat = b0.toNat * 2 ^ 56 + b1.toNat * 2 ^ 48 + b2.toNat * 2 ^ 40 + b3.toNat * 2 ^ 32 +
      b4.toNat * 2 ^ 24 + b5.toNat * 2 ^ 16 + b6.toNat * 2 ^ 8 + b7.toNat) ∧
  (∀ (n : Data) (s t : State), exec (.be64 n) s = .next t → observe t 0x01 = n) ∧
  (∀ n : Data, n.toNat < 2 ^ 32 → (intToBytes n).take 4 = [0, 0, 0, 0]) ∧
  (∀ n : Data, n.toNat < 2 ^ 56 → (intToBytes n).take 1 = [0])

/-- R112: an integer counter reaches the operand as its value mod 2^64, a negative one as its two's complement. -/
def Obligations.CounterWordIsModulo : Prop :=
  (∀ k : Int, ((counterWord k).toNat : Int) = k % 2 ^ 64) ∧
  ∀ k : Int, -2 ^ 63 ≤ k → k < 0 → (counterWord k).toInt = k

/-! ## The Base32 encoder -/

/-- R10: the alphabet in its order, and its partial inverse as the decoder reads it. -/
def Obligations.AlphabetInOrder : Prop :=
  (List.range 32).map (fun v => alpha (BitVec.ofNat 5 v)) =
    [0x41, 0x42, 0x43, 0x44, 0x45, 0x46, 0x47, 0x48, 0x49, 0x4A, 0x4B, 0x4C, 0x4D, 0x4E, 0x4F, 0x50,
     0x51, 0x52, 0x53, 0x54, 0x55, 0x56, 0x57, 0x58, 0x59, 0x5A, 0x32, 0x33, 0x34, 0x35, 0x36, 0x37] ∧
  (∀ v, classify (charOfByte (alpha v)) = .alphabet v) ∧
  ∀ c v, classify c = .alphabet v → charOfByte (alpha v) = c

/-- R131. -/
def Obligations.EncoderClear : Prop :=
  ∀ (s : State) (d : Data), ∃ t, exec .b32eClr s = .next t ∧ acceptCommand (commandWord 0x10 d) s = .next t ∧
    Answers t .ok [] ∧ t.encAcc = 0 ∧ t.encN = 0 ∧ DecSame s t ∧ HotpSame s t ∧ HostSame s t

/-- R132 (and its table R136, which the spec marks as derived from it): one byte of the stream. `t` is the residual
followed by the byte; one character is emitted for `ENC_N` 0 or 1 and two for 2, 3, 4, from the top, and the rest is
the new residual. The premise is invariant (1) of R41, which StepKeepsInvariants states. -/
def Obligations.EncoderByte : Prop :=
  ∀ (s : State) (d : Data), s.encN.toNat ≤ 4 →
    let n := s.encN.toNat
    let x := s.encAcc.toNat * 256 + d.toNat % 256
    ∃ t, exec (.b32eByte (d.extractLsb' 0 8)) s = .next t ∧ acceptCommand (commandWord 0x11 d) s = .next t ∧
      (n ≤ 1 → Answers t .ok [alpha (BitVec.ofNat 5 (x / 2 ^ (n + 3)))] ∧
        t.encN.toNat = n + 3 ∧ t.encAcc.toNat = x % 2 ^ (n + 3)) ∧
      (2 ≤ n → Answers t .ok [alpha (BitVec.ofNat 5 (x / 2 ^ (n + 3))), alpha (BitVec.ofNat 5 (x / 2 ^ (n - 2)))] ∧
        t.encN.toNat = n - 2 ∧ t.encAcc.toNat = x % 2 ^ (n - 2)) ∧
      DecSame s t ∧ HotpSame s t ∧ HostSame s t

/-- R133: the end of the stream. The premise is invariant (1) of R41. -/
def Obligations.EncoderFinish : Prop :=
  ∀ (s : State) (d : Data), s.encN.toNat ≤ 4 →
    ∃ t, exec .b32eFin s = .next t ∧ acceptCommand (commandWord 0x12 d) s = .next t ∧
      (s.encN = 0 → Answers t .ok []) ∧
      (s.encN ≠ 0 → Answers t .ok [alpha (BitVec.ofNat 5 (s.encAcc.toNat * 2 ^ (5 - s.encN.toNat)))]) ∧
      t.encAcc = 0 ∧ t.encN = 0 ∧ DecSame s t ∧ HotpSame s t ∧ HostSame s t

/-- R137, whose last sentence the spec marks "[derived: from rules R132 and R133]": no encoder command fails, from any
state, and every character it emits is in the alphabet (so none is a pad). -/
def Obligations.EncoderNeverFails : Prop :=
  ∀ (s : State) (i : Instr), i.unit = .encoder → ∃ t out, exec i s = .next t ∧ Answers t .ok out ∧
    ∀ b ∈ out, ∃ v, classify (charOfByte b) = .alphabet v

/-- R134, which the spec marks as derived from R130 to R133: a whole encode stream, from any state after the first
reset with `ENC_N = 0` and with commands of other units anywhere between its commands, emits `encodeBase32` of its
bytes and ends cleared. -/
def Obligations.EncoderStreamLaw : Prop :=
  ∀ (bs : List Byte) (is : List Instr) (s : State), s.rstSeen = true → s.encN = 0 →
    (is.filter fun i => i.unit == .encoder) = bs.map .b32eByte ++ [.b32eFin] →
    ∃ rs t, issueAll is s = .next (rs, t) ∧ emitted (responsesOf .encoder is rs) = encodeBase32 bs ∧
      t.encAcc = 0 ∧ t.encN = 0

/-- R135, which the spec marks "[derived: from rule R130]". -/
def Obligations.EncoderLength : Prop :=
  (∀ bs : List Byte, (encodeBase32 bs).length = (8 * bs.length + 4) / 5) ∧
  (∀ (bs : List Byte) (q r : Nat), r < 5 → bs.length = 5 * q + r →
    (encodeBase32 bs).length = 8 * q + [0, 2, 4, 5, 7].getD r 0) ∧
  encodeBase32 [] = []

/-! ## The Base32 decoder -/

/-- R140: the three classes of a 32-bit character operand, by its whole code. -/
def Obligations.CharacterClasses : Prop :=
  ∀ c : CharCode,
    (∀ v : BitVec 5, classify c = .alphabet v ↔
      (0x41 ≤ c.toNat ∧ c.toNat ≤ 0x5A ∧ v.toNat = c.toNat - 0x41) ∨
      (0x32 ≤ c.toNat ∧ c.toNat ≤ 0x37 ∧ v.toNat = c.toNat - 0x32 + 26)) ∧
    (classify c = .pad ↔ c.toNat = 0x3D) ∧
    (classify c = .invalid ↔ ¬(0x41 ≤ c.toNat ∧ c.toNat ≤ 0x5A) ∧ ¬(0x32 ≤ c.toNat ∧ c.toNat ≤ 0x37) ∧
      c.toNat ≠ 0x3D)

/-- R142. -/
def Obligations.DecoderClear : Prop :=
  ∀ (s : State) (d : Data), ∃ t, exec .b32dClr s = .next t ∧ acceptCommand (commandWord 0x20 d) s = .next t ∧
    Answers t .ok [] ∧ t.decAcc = 0 ∧ t.decN = 0 ∧ t.decStop = false ∧ t.decErr = false ∧
    EncSame s t ∧ HotpSame s t ∧ HostSame s t

/-- R143 (and its table R147, which the spec marks as derived from it): one character of the stream, its conditions in
order. `x` is the residual followed by the character's five bits; a byte is emitted from the top once eight bits are
there. -/
def Obligations.DecoderCharacter : Prop :=
  ∀ (s : State) (d : Data),
    let c : CharCode := d.extractLsb' 0 32
    let n := s.decN.toNat
    ∃ t, exec (.b32dChar c) s = .next t ∧ acceptCommand (commandWord 0x21 d) s = .next t ∧
      (s.decErr = true → Answers t .invalidEncoding [] ∧ DecSame s t) ∧
      (s.decErr = false → s.decStop = true → Answers t .ok [] ∧ DecSame s t) ∧
      (s.decErr = false → s.decStop = false → classify c = .pad →
        Answers t .ok [] ∧ t.decStop = true ∧ t.decAcc = s.decAcc ∧ t.decN = s.decN ∧ t.decErr = false) ∧
      (∀ v, s.decErr = false → s.decStop = false → classify c = .alphabet v →
        t.decStop = false ∧ t.decErr = false ∧
        (n ≤ 2 → Answers t .ok [] ∧ t.decN.toNat = n + 5 ∧
          t.decAcc.toNat = (s.decAcc.toNat * 32 + v.toNat) % 2 ^ (n + 5)) ∧
        (3 ≤ n → Answers t .ok [BitVec.ofNat 8 ((s.decAcc.toNat * 32 + v.toNat) / 2 ^ (n - 3))] ∧
          t.decN.toNat = n - 3 ∧ t.decAcc.toNat = (s.decAcc.toNat * 32 + v.toNat) % 2 ^ (n - 3))) ∧
      (s.decErr = false → s.decStop = false → classify c = .invalid →
        Answers t .invalidEncoding [] ∧ t.decErr = true ∧ t.decAcc = s.decAcc ∧ t.decN = s.decN ∧
        t.decStop = false) ∧
      EncSame s t ∧ HotpSame s t ∧ HostSame s t

/-- R144: the verdict, and the decoder cleared; no leftover bits are emitted (R148). -/
def Obligations.DecoderFinish : Prop :=
  ∀ (s : State) (d : Data), ∃ t, exec .b32dFin s = .next t ∧ acceptCommand (commandWord 0x22 d) s = .next t ∧
    (s.decErr = true → Answers t .invalidEncoding []) ∧ (s.decErr = false → Answers t .ok []) ∧
    t.decAcc = 0 ∧ t.decN = 0 ∧ t.decStop = false ∧ t.decErr = false ∧
    EncSame s t ∧ HotpSame s t ∧ HostSame s t

/-- R145, which the spec marks as derived from R141 to R144: a whole decode stream, from a cleared decoder and with
commands of other units anywhere between its commands. On success the verdict is OK and the emitted bytes are
`decodeBase32` of the string. On failure the verdict, and every response from the first invalid character before any
pad on, is INVALID_ENCODING. -/
def Obligations.DecoderStreamLaw : Prop :=
  ∀ (cs : List CharCode) (is : List Instr) (s : State),
    s.rstSeen = true → s.decAcc = 0 → s.decN = 0 → s.decStop = false → s.decErr = false →
    (is.filter fun i => i.unit == .decoder) = cs.map .b32dChar ++ [.b32dFin] →
    ∃ rs t, issueAll is s = .next (rs, t) ∧
      (∀ out, decodeBase32 cs = .ok out →
        lastStatus (responsesOf .decoder is rs) = .ok ∧ emitted (responsesOf .decoder is rs) = out) ∧
      (∀ e, decodeBase32 cs = .error e → lastStatus (responsesOf .decoder is rs) = .invalidEncoding) ∧
      ∀ (k j : Nat) (c : CharCode), cs[k]? = some c → classify c = .invalid → k ≤ j → j ≤ cs.length →
        (∀ m < k, ∀ b, cs[m]? = some b → classify b ≠ .pad) →
        ((responsesOf .decoder is rs)[j]?).map (·.status) = some .invalidEncoding

/-- R146, which the spec marks "[derived: from rule R141]". -/
def Obligations.DecoderLength : Prop :=
  ∀ (cs : List CharCode) (out : List Byte), decodeBase32 cs = .ok out →
    out.length = 5 * (cs.takeWhile fun c => classify c != .pad).length / 8

/-- A string decodes exactly when no character before its first pad is invalid (R152, R141, R156). -/
def Obligations.DecodeFailsOnlyOnInvalid : Prop :=
  ∀ cs : List CharCode, (∃ out, decodeBase32 cs = .ok out) ↔
    ∀ c ∈ cs.takeWhile (fun c => classify c != .pad), classify c ≠ .invalid

/-- R153: encoding and decoding a byte list gives it back, with any number of pads appended (none included). -/
def Obligations.Base32RoundTrip : Prop :=
  ∀ (bs : List Byte) (p : Nat),
    decodeBase32 ((encodeBase32 bs).map charOfByte ++ List.replicate p 0x3D) = .ok bs

/-- R154, which the spec marks "[derived: from rule R149]", and the function level of R149: pads appended, and
anything at all after a first pad, change nothing. -/
def Obligations.NothingAfterPadCounts : Prop :=
  (∀ (cs : List CharCode) (p : Nat), decodeBase32 (cs ++ List.replicate p 0x3D) = decodeBase32 cs) ∧
  ∀ cs rest : List CharCode, decodeBase32 (cs ++ 0x3D :: rest) = decodeBase32 cs

/-- R155: lowercase letters, the digits 0, 1, 8, 9 and white space are invalid, and a string with one of them
before any pad fails. Which codes are white space the spec does not list; they are Unicode's (log entry 8). -/
def Obligations.StrictAlphabet : Prop :=
  ∀ c : CharCode,
    (0x61 ≤ c.toNat ∧ c.toNat ≤ 0x7A) ∨ c.toNat ∈ [0x30, 0x31, 0x38, 0x39] ∨
      (0x09 ≤ c.toNat ∧ c.toNat ≤ 0x0D) ∨ (0x2000 ≤ c.toNat ∧ c.toNat ≤ 0x200A) ∨
      c.toNat ∈ [0x20, 0x85, 0xA0, 0x1680, 0x2028, 0x2029, 0x202F, 0x205F, 0x3000] →
    classify c = .invalid ∧
    ∀ pre rest : List CharCode, (∀ b ∈ pre, classify b ≠ .pad) →
      decodeBase32 (pre ++ c :: rest) = .error .invalidEncoding

/-- R148, R156: every string of alphabet characters decodes, whatever its length and whatever its leftover bits, to
the bytes of the longest whole-byte prefix of its bits, five a character; the bits after that prefix are discarded.
The last clauses are the examples of the two rules. -/
def Obligations.NonCanonicalInputDecodes : Prop :=
  (∀ vs : List (BitVec 5), ∃ out, decodeBase32 (vs.map fun v => charOfByte (alpha v)) = .ok out ∧
    bitString out = (vs.flatMap fun v =>
      [v.getLsbD 4, v.getLsbD 3, v.getLsbD 2, v.getLsbD 1, v.getLsbD 0]).take (8 * (5 * vs.length / 8))) ∧
  decodeBase32 [0x37, 0x35] = .ok [0xFF] ∧ decodeBase32 [0x37, 0x34] = .ok [0xFF] ∧
  decodeBase32 [0x41] = .ok [] ∧ decodeBase32 [0x41, 0x41, 0x41] = .ok [0x00]

/-- R150: a character that raises INVALID_ENCODING leaves the stream failed; then only B32D.FIN, B32D.CLR and reset
end it, no other command word moves any register of the decoder, and B32D.CHAR keeps answering INVALID_ENCODING with
no bytes. -/
def Obligations.DecoderErrorIsSticky : Prop :=
  (∀ (s t : State) (w : CommandWord), opOf w = 0x21 → acceptCommand w s = .next t → t.rspSt = .invalidEncoding →
    t.decErr = true) ∧
  (∀ (s : State) (w : CommandWord), s.decErr = true → opOf w ≠ 0x20 → opOf w ≠ 0x22 →
    ∃ t, acceptCommand w s = .next t ∧ DecSame s t ∧
      (opOf w = 0x21 → Answers t .invalidEncoding [] ∧ UnitsSame s t)) ∧
  (∀ (s : State) (w : CommandWord), opOf w = 0x20 ∨ opOf w = 0x22 →
    ∃ t, acceptCommand w s = .next t ∧ t.decErr = false) ∧
  ∀ (s : State) (rest : List HostAction), s.pending = .assertRst :: rest →
    ∃ t, step s = .next t ∧ t.decErr = false

/-- R224 (c): in a stream that has stopped at a pad, every further character is ignored with OK. -/
def Obligations.StoppedStreamIgnoresCharacters : Prop :=
  ∀ (cs : List CharCode) (s : State), s.rstSeen = true → s.decStop = true → s.decErr = false →
    ∃ rs t, issueAll (cs.map .b32dChar) s = .next (rs, t) ∧ DecSame s t ∧
      ∀ r ∈ rs, r.status = .ok ∧ r.bytes = []

/-! ## HOTP -/

/-- R172: a legal index writes that byte and no other; an index of 20 or more writes nothing. -/
def Obligations.DigestByteWrite : Prop :=
  ∀ (s : State) (d : Data),
    let i := d.toNat / 256 % 256
    ∃ t, exec (.htDig (d.extractLsb' 8 8) (d.extractLsb' 0 8)) s = .next t ∧
      acceptCommand (commandWord 0x40 d) s = .next t ∧
      (i < 20 → Answers t .ok [] ∧ ∀ k : Fin 20, t.dig[k] = if k.val = i then d.extractLsb' 0 8 else s.dig[k]) ∧
      (20 ≤ i → Answers t .illegalOperand [] ∧ DigSame s t) ∧
      EncSame s t ∧ DecSame s t ∧ TrSame s t ∧ CodeSame s t ∧ HostSame s t

/-- R173 with R170: the offset, the 31-bit value and its four bytes, from the digest buffer as it stands. -/
def Obligations.TruncationResult : Prop :=
  ∀ (s : State) (d : Data),
    let o := digNat s 19 % 16
    ∃ t, exec .htTrunc s = .next t ∧ acceptCommand (commandWord 0x41 d) s = .next t ∧
      t.trOff.toNat = o ∧
      t.trBin.toNat = digNat s o % 128 * 2 ^ 24 + digNat s (o + 1) * 2 ^ 16 + digNat s (o + 2) * 2 ^ 8 +
        digNat s (o + 3) ∧
      Answers t .ok [BitVec.ofNat 8 (digNat s o % 128), BitVec.ofNat 8 (digNat s (o + 1)),
        BitVec.ofNat 8 (digNat s (o + 2)), BitVec.ofNat 8 (digNat s (o + 3))] ∧
      EncSame s t ∧ DecSame s t ∧ DigSame s t ∧ CodeSame s t ∧ HostSame s t

/-- R174 with R171: the value mod 1000000 and its six digits, from `TR_BIN` as it stands. -/
def Obligations.CodeResult : Prop :=
  ∀ (s : State) (d : Data),
    let v := s.trBin.toNat % 1000000
    ∃ t, exec .htCode s = .next t ∧ acceptCommand (commandWord 0x42 d) s = .next t ∧
      t.codeVal.toNat = v ∧ t.codeChr.toList = sixDigits v ∧ Answers t .ok (sixDigits v) ∧
      EncSame s t ∧ DecSame s t ∧ DigSame s t ∧ TrSame s t ∧ HostSame s t

/-- R175; that its end state is that of the two commands the spec marks "[derived: from rules R173 and R174]":
HT.HOTP ends in the very state that HT.TRUNC followed by HT.CODE ends in, with the code of the value just
truncated as its answer. -/
def Obligations.HotpIsTruncThenCode : Prop :=
  ∀ (s : State) (d : Data), ∃ t u, exec .htTrunc s = .next t ∧ exec .htCode t = .next u ∧
    exec .htHotp s = .next u ∧ acceptCommand (commandWord 0x43 d) s = .next u ∧
    u.trOff = t.trOff ∧ u.trBin = t.trBin ∧ u.codeVal.toNat = t.trBin.toNat % 1000000 ∧
    u.codeChr.toList = sixDigits (t.trBin.toNat % 1000000) ∧ Answers u .ok (sixDigits (t.trBin.toNat % 1000000)) ∧
    EncSame s u ∧ DecSame s u ∧ DigSame s u ∧ HostSame s u

/-- R176, which the spec marks "[derived: from rule R170]": truncation reads four bytes within `DIG[0..18]` and the
low nibble of `DIG[19]`, and nothing else. -/
def Obligations.TruncationReadsFourBytes : Prop :=
  ∀ h h' : Digest,
    (dtOffset h).toNat + 3 ≤ 18 ∧
    ((h[19]).toNat % 16 = (h'[19]).toNat % 16 →
      (∀ k : Fin 20, (dtOffset h).toNat ≤ k.val → k.val ≤ (dtOffset h).toNat + 3 → h[k] = h'[k]) →
      dtOffset h = dtOffset h' ∧ dtBinary h = dtBinary h')

/-- R177 and R178, which the spec marks as derived from R170 and R171: a code is six decimal digits, zero-padded,
whose number is the code value, below 1000000. -/
def Obligations.CodeIsSixDigits : Prop :=
  ∀ (s t : State) (i : Instr), i = .htCode ∨ i = .htHotp → exec i s = .next t →
    t.codeVal.toNat ≤ 999999 ∧ t.rspCnt.toNat = 6 ∧
    (∀ k : Fin 6, 0x30 ≤ (t.codeChr[k]).toNat ∧ (t.codeChr[k]).toNat ≤ 0x39) ∧
    (∀ k : Fin 6, t.rspDat[k.val] = t.codeChr[k]) ∧
    ((List.finRange 6).map fun k : Fin 6 => ((t.codeChr[k]).toNat - 0x30) * 10 ^ (5 - k.val)).sum =
      t.codeVal.toNat

/-- R179, which the spec marks as derived from R110, R170, R171 and R175: for a digest loaded by HT.LOAD, HT.HOTP
emits `CODE(DT(H).binary).chars`; with the digest of the external HMAC-SHA1 this is `generateCode(key, c)`. -/
def Obligations.LoadedDigestGivesItsCode : Prop :=
  (∀ (s : State) (h : Digest), s.rstSeen = true → ∃ rs t u, issueAll (pseudoLoad h) s = .next (rs, t) ∧ t.dig = h ∧
    (∀ r ∈ rs, r.status = .ok) ∧ exec .htHotp t = .next u ∧ (responseOf u).bytes = digestCode h) ∧
  ∀ (s : State) (key : List Byte) (c : Int), s.rstSeen = true → ∃ u,
    generateCode key c s =
      .next (digestCode (Config.hmacSha1 key (intToBytes (counterWord c))), u)

/-! ## Errors, isolation, observation -/

/-- R201 with R202 and R203: each error status has exactly its causes. -/
def Obligations.StatusHasExactCauses : Prop :=
  ∀ (s t : State) (op : BitVec 8) (d : Data), acceptCommand (commandWord op d) s = .next t →
    (t.rspSt = .invalidEncoding ↔
      (op = 0x21 ∧ s.decErr = false ∧ s.decStop = false ∧ classify (d.extractLsb' 0 32) = .invalid) ∨
      (op = 0x21 ∧ s.decErr = true) ∨ (op = 0x22 ∧ s.decErr = true)) ∧
    (t.rspSt = .illegalCommand ↔ op ∉ assignedOpcodes) ∧
    (t.rspSt = .illegalOperand ↔ op = 0x40 ∧ 20 ≤ d.toNat / 256 % 256)

/-- A command that fails writes none of its other results (R205): no byte, no register but the response and, for an
invalid character, `DEC_ERR`; B32D.FIN, whose failure is the verdict of an earlier one, clears the decoder (R144). -/
def Obligations.ErrorsArePrecise : Prop :=
  ∀ (s t : State) (w : CommandWord), acceptCommand w s = .next t → t.rspSt ≠ .ok →
    Answers t t.rspSt [] ∧ EncSame s t ∧ HotpSame s t ∧ HostSame s t ∧
    (opOf w ≠ 0x22 → t.decAcc = s.decAcc ∧ t.decN = s.decN ∧ t.decStop = s.decStop ∧
      t.decErr = (s.decErr || decide (t.rspSt = .invalidEncoding)))

/-- The written-by column of R32: only the listed commands change a unit's registers, and no command touches the
host's side. -/
def Obligations.OnlyListedCommandsWrite : Prop :=
  ∀ (s t : State) (w : CommandWord), acceptCommand w s = .next t →
    (opOf w ∉ [0x10, 0x11, 0x12] → EncSame s t) ∧ (opOf w ∉ [0x20, 0x21, 0x22] → DecSame s t) ∧
    (opOf w ≠ 0x40 → DigSame s t) ∧ (opOf w ∉ [0x41, 0x43] → TrSame s t) ∧
    (opOf w ∉ [0x42, 0x43] → CodeSame s t) ∧ HostSame s t

/-- R104: a unit's command reads its own registers only. From two states that agree on them, whatever the other
units and the response registers hold, it gives the same response and leaves the same registers of its unit; and it
changes no register of another unit. -/
def Obligations.UnitsAreIndependent : Prop :=
  ∀ (i : Instr) (s s' : State), UnitAgrees i.unit s s' →
    ∃ t t', exec i s = .next t ∧ exec i s' = .next t' ∧ RspSame t t' ∧ UnitAgrees i.unit t t' ∧
      ∀ u, u ≠ i.unit → UnitAgrees u s t

/-- R45 (how a read is recorded is the model's choice, log entry 1): every view of the observation port holds its
fields at their bits and 0 elsewhere, every other selector reads 0, and a read changes no register. -/
def Obligations.ObservationPortShowsState : Prop :=
  ∀ s : State,
    ((observe s 0x00).extractLsb' 0 2 = statusCode s.rspSt ∧ (observe s 0x00).extractLsb' 2 2 = 0 ∧
      (observe s 0x00).extractLsb' 4 4 = s.rspCnt ∧ (observe s 0x00).extractLsb' 8 3 = s.encN ∧
      (observe s 0x00).getLsbD 11 = false ∧ (observe s 0x00).extractLsb' 12 3 = s.decN ∧
      (observe s 0x00).getLsbD 15 = false ∧ (observe s 0x00).getLsbD 16 = s.decStop ∧
      (observe s 0x00).getLsbD 17 = s.decErr ∧ (observe s 0x00).extractLsb' 18 46 = 0) ∧
    (∀ k : Fin 8, (observe s 0x01).extractLsb' (56 - 8 * k.val) 8 = s.rspDat[k]) ∧
    (observe s 0x02).toNat = s.encAcc.toNat ∧ (observe s 0x03).toNat = s.decAcc.toNat ∧
    (observe s 0x04).toNat = s.trOff.toNat ∧ (observe s 0x05).toNat = s.trBin.toNat ∧
    (observe s 0x06).toNat = s.codeVal.toNat ∧
    (∀ k : Fin 6, (observe s 0x07).extractLsb' (40 - 8 * k.val) 8 = s.codeChr[k]) ∧
    (observe s 0x07).extractLsb' 48 16 = 0 ∧
    (∀ k : Fin 8, (observe s 0x08).extractLsb' (56 - 8 * k.val) 8 = s.dig[k.val]) ∧
    (∀ k : Fin 8, (observe s 0x09).extractLsb' (56 - 8 * k.val) 8 = s.dig[8 + k.val]) ∧
    (∀ k : Fin 4, (observe s 0x0A).extractLsb' (24 - 8 * k.val) 8 = s.dig[16 + k.val]) ∧
    (observe s 0x0A).extractLsb' 32 32 = 0 ∧
    (∀ sel : BitVec 8, 0x0A < sel.toNat → observe s sel = 0) ∧
    ∀ sel rest, s.rstSeen = true → s.pending = .readPort sel :: rest →
      step s = .next { s with pending := rest, seen := s.seen ++ [.portValue sel (observe s sel)] }

/-- R200's codes in the two bits of `RSP_ST`. -/
def Obligations.StatusCodesDiffer : Prop :=
  statusCode .ok = 0 ∧ statusCode .invalidEncoding = 1 ∧ statusCode .illegalCommand = 2 ∧
  statusCode .illegalOperand = 3

/-! ## The host's side -/

/-- R87: the expansion of B32E.BYTES encodes from any state after the first reset, the expansion of B32D.STR decodes
from any state after the first reset (its bytes counting only when the last response is OK), and HT.LOAD writes byte k
at index k. -/
def Obligations.PseudoCommandsDoTheirFunction : Prop :=
  (∀ (bs : List Byte) (s : State), s.rstSeen = true → ∃ t, hostEncode bs s = .next (encodeBase32 bs, t)) ∧
  (∀ (cs : List CharCode) (s : State), s.rstSeen = true → ∃ t, hostDecode cs s = .next (decodeBase32 cs, t)) ∧
  ∀ h : Digest, pseudoLoad h = (List.finRange 20).map fun k : Fin 20 => .htDig (BitVec.ofNat 8 k.val) h[k]

/-- R86: the assembler's word of every command has every ignored bit 0, and the `OP:DATA` notation reads back. -/
def Obligations.AssemblyNotation : Prop :=
  (∀ i : Instr, dataOf (encode i) &&& readMask (opOf (encode i)) = dataOf (encode i)) ∧
  ∀ w : CommandWord, parseWord (wordText w) = some w

/-- R236: the counter is `floor(timeMs / 30000)`, toward minus infinity, computed with one flooring of the exact
quotient. -/
def Obligations.CounterOfTimestamp : Prop :=
  ∀ ms : Int, 30000 * counterOfMs ms ≤ ms ∧ ms < 30000 * (counterOfMs ms + 1) ∧
    counterOfMs ms = Int.fdiv ms 30000

/-- R238: `generateTotp` of a Base32 secret fails exactly as its decode does, and otherwise, as for a secret of bytes,
is the code of the timestamp's counter; from any state of the block after the first reset. -/
def Obligations.TotpOfSecret : Prop :=
  (∀ (cs : List CharCode) (e : InvalidEncodingError) (ms : Int) (s : State), s.rstSeen = true →
    decodeBase32 cs = .error e → ∃ t, generateTotp (.base32 cs) ms s = .next (.error .invalidEncoding, t)) ∧
  (∀ (cs : List CharCode) (key : List Byte) (ms : Int) (s : State), s.rstSeen = true →
    decodeBase32 cs = .ok key → ∃ t, generateTotp (.base32 cs) ms s =
      .next (.ok (digestCode (Config.hmacSha1 key (intToBytes (counterWord (counterOfMs ms))))), t)) ∧
  ∀ (key : List Byte) (ms : Int) (s : State), s.rstSeen = true →
    ∃ t, generateTotp (.bytes key) ms s =
      .next (.ok (digestCode (Config.hmacSha1 key (intToBytes (counterWord (counterOfMs ms))))), t)

/-- R239: `verifyTotp` is true exactly when the code of some counter from `c - W` to `c + W` is the token, character
by character, and its window defaults to 3. That a Base32 secret is decoded once, before the window, and that its
failure is the result is the model's reading (log entry 11). -/
def Obligations.VerifyChecksTheWindow : Prop :=
  Config.window = 3 ∧
  (∀ (token cs : List CharCode) (e : InvalidEncodingError) (ms : Int) (w : Nat) (s : State),
    s.rstSeen = true → decodeBase32 cs = .error e →
    ∃ t, verifyTotp token (.base32 cs) ms s w = .next (.error .invalidEncoding, t)) ∧
  ∀ (token : List CharCode) (secret : Secret) (key : List Byte) (ms : Int) (w : Nat) (s : State),
    s.rstSeen = true → (secret = .bytes key ∨ ∃ cs, secret = .base32 cs ∧ decodeBase32 cs = .ok key) →
    ∃ b t, verifyTotp token secret ms s w = .next (.ok b, t) ∧
      (b = true ↔ ∃ i : Int, counterOfMs ms - w ≤ i ∧ i ≤ counterOfMs ms + w ∧
        (digestCode (Config.hmacSha1 key (intToBytes (counterWord i)))).map charOfByte = token)
end

