-- ==== Sys2Proof/Laws/Encoding.lean ====
section
/-! SUPPORT. The command word and its fields (R80, R81), and the decoder on a word given by its fields. -/

namespace Sys2Proof

theorem opOf_commandWord (op : BitVec 8) (data : Data) : opOf (commandWord op data) = op :=
  BitVec.extractLsb'_append_eq_left

theorem dataOf_commandWord (op : BitVec 8) (data : Data) : dataOf (commandWord op data) = data :=
  BitVec.extractLsb'_append_eq_right

/-- A word is its two fields (R80). -/
theorem commandWord_opOf_dataOf (w : CommandWord) : commandWord (opOf w) (dataOf w) = w := by
  have h : w.extractLsb' 64 8 ++ w.extractLsb' 0 64 = w.extractLsb' 0 (8 + 64) :=
    BitVec.extractLsb'_append_extractLsb'_eq_extractLsb' rfl
  exact h.trans BitVec.extractLsb'_eq_self

theorem fieldB_toNat (d : Data) : (fieldB d).toNat = d.toNat % 256 := by simp [fieldB]

theorem fieldI_toNat (d : Data) : (fieldI d).toNat = d.toNat / 256 % 256 := by
  simp [fieldI, Nat.shiftRight_eq_div_pow]

theorem fieldC_toNat (d : Data) : (fieldC d).toNat = d.toNat % 2 ^ 32 := by simp [fieldC]

/-- The decoder reads the two fields and nothing else of a word (R80). -/
theorem decode_commandWord (op : BitVec 8) (data : Data) :
    decode (commandWord op data) = decodeFields op data := by
  rw [decode, opOf_commandWord, dataOf_commandWord]

end Sys2Proof
end

