-- ==== Sys2Proof/Laws/State.lean ====
section
/-! SUPPORT. One lemma per field of State and per update: what the update leaves in the field, true by rfl. -/

namespace Sys2Proof.Machine

@[simp] theorem respond_encAcc (st : Status) (out : List Byte) (s : State) :
    (respond st out s).encAcc = s.encAcc := rfl
@[simp] theorem respond_encN (st : Status) (out : List Byte) (s : State) :
    (respond st out s).encN = s.encN := rfl
@[simp] theorem respond_decAcc (st : Status) (out : List Byte) (s : State) :
    (respond st out s).decAcc = s.decAcc := rfl
@[simp] theorem respond_decN (st : Status) (out : List Byte) (s : State) :
    (respond st out s).decN = s.decN := rfl
@[simp] theorem respond_decStop (st : Status) (out : List Byte) (s : State) :
    (respond st out s).decStop = s.decStop := rfl
@[simp] theorem respond_decErr (st : Status) (out : List Byte) (s : State) :
    (respond st out s).decErr = s.decErr := rfl
@[simp] theorem respond_dig (st : Status) (out : List Byte) (s : State) :
    (respond st out s).dig = s.dig := rfl
@[simp] theorem respond_trOff (st : Status) (out : List Byte) (s : State) :
    (respond st out s).trOff = s.trOff := rfl
@[simp] theorem respond_trBin (st : Status) (out : List Byte) (s : State) :
    (respond st out s).trBin = s.trBin := rfl
@[simp] theorem respond_codeVal (st : Status) (out : List Byte) (s : State) :
    (respond st out s).codeVal = s.codeVal := rfl
@[simp] theorem respond_codeChr (st : Status) (out : List Byte) (s : State) :
    (respond st out s).codeChr = s.codeChr := rfl
@[simp] theorem respond_rspSt (st : Status) (out : List Byte) (s : State) :
    (respond st out s).rspSt = st := rfl
@[simp] theorem respond_rspCnt (st : Status) (out : List Byte) (s : State) :
    (respond st out s).rspCnt = BitVec.ofNat 4 out.length := rfl
@[simp] theorem respond_rspDat (st : Status) (out : List Byte) (s : State) :
    (respond st out s).rspDat = #v[out.getD 0 0, out.getD 1 0, out.getD 2 0, out.getD 3 0,
        out.getD 4 0, out.getD 5 0, out.getD 6 0, out.getD 7 0] := rfl
@[simp] theorem respond_pending (st : Status) (out : List Byte) (s : State) :
    (respond st out s).pending = s.pending := rfl
@[simp] theorem respond_seen (st : Status) (out : List Byte) (s : State) :
    (respond st out s).seen = s.seen := rfl
@[simp] theorem respond_rstSeen (st : Status) (out : List Byte) (s : State) :
    (respond st out s).rstSeen = s.rstSeen := rfl

@[simp] theorem setEnc_encAcc (a : BitVec 4) (n : BitVec 3) (s : State) :
    (setEnc a n s).encAcc = a := rfl
@[simp] theorem setEnc_encN (a : BitVec 4) (n : BitVec 3) (s : State) :
    (setEnc a n s).encN = n := rfl
@[simp] theorem setEnc_decAcc (a : BitVec 4) (n : BitVec 3) (s : State) :
    (setEnc a n s).decAcc = s.decAcc := rfl
@[simp] theorem setEnc_decN (a : BitVec 4) (n : BitVec 3) (s : State) :
    (setEnc a n s).decN = s.decN := rfl
@[simp] theorem setEnc_decStop (a : BitVec 4) (n : BitVec 3) (s : State) :
    (setEnc a n s).decStop = s.decStop := rfl
@[simp] theorem setEnc_decErr (a : BitVec 4) (n : BitVec 3) (s : State) :
    (setEnc a n s).decErr = s.decErr := rfl
@[simp] theorem setEnc_dig (a : BitVec 4) (n : BitVec 3) (s : State) :
    (setEnc a n s).dig = s.dig := rfl
@[simp] theorem setEnc_trOff (a : BitVec 4) (n : BitVec 3) (s : State) :
    (setEnc a n s).trOff = s.trOff := rfl
@[simp] theorem setEnc_trBin (a : BitVec 4) (n : BitVec 3) (s : State) :
    (setEnc a n s).trBin = s.trBin := rfl
@[simp] theorem setEnc_codeVal (a : BitVec 4) (n : BitVec 3) (s : State) :
    (setEnc a n s).codeVal = s.codeVal := rfl
@[simp] theorem setEnc_codeChr (a : BitVec 4) (n : BitVec 3) (s : State) :
    (setEnc a n s).codeChr = s.codeChr := rfl
@[simp] theorem setEnc_rspSt (a : BitVec 4) (n : BitVec 3) (s : State) :
    (setEnc a n s).rspSt = s.rspSt := rfl
@[simp] theorem setEnc_rspCnt (a : BitVec 4) (n : BitVec 3) (s : State) :
    (setEnc a n s).rspCnt = s.rspCnt := rfl
@[simp] theorem setEnc_rspDat (a : BitVec 4) (n : BitVec 3) (s : State) :
    (setEnc a n s).rspDat = s.rspDat := rfl
@[simp] theorem setEnc_pending (a : BitVec 4) (n : BitVec 3) (s : State) :
    (setEnc a n s).pending = s.pending := rfl
@[simp] theorem setEnc_seen (a : BitVec 4) (n : BitVec 3) (s : State) :
    (setEnc a n s).seen = s.seen := rfl
@[simp] theorem setEnc_rstSeen (a : BitVec 4) (n : BitVec 3) (s : State) :
    (setEnc a n s).rstSeen = s.rstSeen := rfl

@[simp] theorem setDec_encAcc (a : BitVec 7) (n : BitVec 3) (s : State) :
    (setDec a n s).encAcc = s.encAcc := rfl
@[simp] theorem setDec_encN (a : BitVec 7) (n : BitVec 3) (s : State) :
    (setDec a n s).encN = s.encN := rfl
@[simp] theorem setDec_decAcc (a : BitVec 7) (n : BitVec 3) (s : State) :
    (setDec a n s).decAcc = a := rfl
@[simp] theorem setDec_decN (a : BitVec 7) (n : BitVec 3) (s : State) :
    (setDec a n s).decN = n := rfl
@[simp] theorem setDec_decStop (a : BitVec 7) (n : BitVec 3) (s : State) :
    (setDec a n s).decStop = s.decStop := rfl
@[simp] theorem setDec_decErr (a : BitVec 7) (n : BitVec 3) (s : State) :
    (setDec a n s).decErr = s.decErr := rfl
@[simp] theorem setDec_dig (a : BitVec 7) (n : BitVec 3) (s : State) :
    (setDec a n s).dig = s.dig := rfl
@[simp] theorem setDec_trOff (a : BitVec 7) (n : BitVec 3) (s : State) :
    (setDec a n s).trOff = s.trOff := rfl
@[simp] theorem setDec_trBin (a : BitVec 7) (n : BitVec 3) (s : State) :
    (setDec a n s).trBin = s.trBin := rfl
@[simp] theorem setDec_codeVal (a : BitVec 7) (n : BitVec 3) (s : State) :
    (setDec a n s).codeVal = s.codeVal := rfl
@[simp] theorem setDec_codeChr (a : BitVec 7) (n : BitVec 3) (s : State) :
    (setDec a n s).codeChr = s.codeChr := rfl
@[simp] theorem setDec_rspSt (a : BitVec 7) (n : BitVec 3) (s : State) :
    (setDec a n s).rspSt = s.rspSt := rfl
@[simp] theorem setDec_rspCnt (a : BitVec 7) (n : BitVec 3) (s : State) :
    (setDec a n s).rspCnt = s.rspCnt := rfl
@[simp] theorem setDec_rspDat (a : BitVec 7) (n : BitVec 3) (s : State) :
    (setDec a n s).rspDat = s.rspDat := rfl
@[simp] theorem setDec_pending (a : BitVec 7) (n : BitVec 3) (s : State) :
    (setDec a n s).pending = s.pending := rfl
@[simp] theorem setDec_seen (a : BitVec 7) (n : BitVec 3) (s : State) :
    (setDec a n s).seen = s.seen := rfl
@[simp] theorem setDec_rstSeen (a : BitVec 7) (n : BitVec 3) (s : State) :
    (setDec a n s).rstSeen = s.rstSeen := rfl

@[simp] theorem setStop_encAcc (s : State) :
    (setStop s).encAcc = s.encAcc := rfl
@[simp] theorem setStop_encN (s : State) :
    (setStop s).encN = s.encN := rfl
@[simp] theorem setStop_decAcc (s : State) :
    (setStop s).decAcc = s.decAcc := rfl
@[simp] theorem setStop_decN (s : State) :
    (setStop s).decN = s.decN := rfl
@[simp] theorem setStop_decStop (s : State) :
    (setStop s).decStop = true := rfl
@[simp] theorem setStop_decErr (s : State) :
    (setStop s).decErr = s.decErr := rfl
@[simp] theorem setStop_dig (s : State) :
    (setStop s).dig = s.dig := rfl
@[simp] theorem setStop_trOff (s : State) :
    (setStop s).trOff = s.trOff := rfl
@[simp] theorem setStop_trBin (s : State) :
    (setStop s).trBin = s.trBin := rfl
@[simp] theorem setStop_codeVal (s : State) :
    (setStop s).codeVal = s.codeVal := rfl
@[simp] theorem setStop_codeChr (s : State) :
    (setStop s).codeChr = s.codeChr := rfl
@[simp] theorem setStop_rspSt (s : State) :
    (setStop s).rspSt = s.rspSt := rfl
@[simp] theorem setStop_rspCnt (s : State) :
    (setStop s).rspCnt = s.rspCnt := rfl
@[simp] theorem setStop_rspDat (s : State) :
    (setStop s).rspDat = s.rspDat := rfl
@[simp] theorem setStop_pending (s : State) :
    (setStop s).pending = s.pending := rfl
@[simp] theorem setStop_seen (s : State) :
    (setStop s).seen = s.seen := rfl
@[simp] theorem setStop_rstSeen (s : State) :
    (setStop s).rstSeen = s.rstSeen := rfl

@[simp] theorem setErr_encAcc (s : State) :
    (setErr s).encAcc = s.encAcc := rfl
@[simp] theorem setErr_encN (s : State) :
    (setErr s).encN = s.encN := rfl
@[simp] theorem setErr_decAcc (s : State) :
    (setErr s).decAcc = s.decAcc := rfl
@[simp] theorem setErr_decN (s : State) :
    (setErr s).decN = s.decN := rfl
@[simp] theorem setErr_decStop (s : State) :
    (setErr s).decStop = s.decStop := rfl
@[simp] theorem setErr_decErr (s : State) :
    (setErr s).decErr = true := rfl
@[simp] theorem setErr_dig (s : State) :
    (setErr s).dig = s.dig := rfl
@[simp] theorem setErr_trOff (s : State) :
    (setErr s).trOff = s.trOff := rfl
@[simp] theorem setErr_trBin (s : State) :
    (setErr s).trBin = s.trBin := rfl
@[simp] theorem setErr_codeVal (s : State) :
    (setErr s).codeVal = s.codeVal := rfl
@[simp] theorem setErr_codeChr (s : State) :
    (setErr s).codeChr = s.codeChr := rfl
@[simp] theorem setErr_rspSt (s : State) :
    (setErr s).rspSt = s.rspSt := rfl
@[simp] theorem setErr_rspCnt (s : State) :
    (setErr s).rspCnt = s.rspCnt := rfl
@[simp] theorem setErr_rspDat (s : State) :
    (setErr s).rspDat = s.rspDat := rfl
@[simp] theorem setErr_pending (s : State) :
    (setErr s).pending = s.pending := rfl
@[simp] theorem setErr_seen (s : State) :
    (setErr s).seen = s.seen := rfl
@[simp] theorem setErr_rstSeen (s : State) :
    (setErr s).rstSeen = s.rstSeen := rfl

@[simp] theorem clearDec_encAcc (s : State) :
    (clearDec s).encAcc = s.encAcc := rfl
@[simp] theorem clearDec_encN (s : State) :
    (clearDec s).encN = s.encN := rfl
@[simp] theorem clearDec_decAcc (s : State) :
    (clearDec s).decAcc = 0 := rfl
@[simp] theorem clearDec_decN (s : State) :
    (clearDec s).decN = 0 := rfl
@[simp] theorem clearDec_decStop (s : State) :
    (clearDec s).decStop = false := rfl
@[simp] theorem clearDec_decErr (s : State) :
    (clearDec s).decErr = false := rfl
@[simp] theorem clearDec_dig (s : State) :
    (clearDec s).dig = s.dig := rfl
@[simp] theorem clearDec_trOff (s : State) :
    (clearDec s).trOff = s.trOff := rfl
@[simp] theorem clearDec_trBin (s : State) :
    (clearDec s).trBin = s.trBin := rfl
@[simp] theorem clearDec_codeVal (s : State) :
    (clearDec s).codeVal = s.codeVal := rfl
@[simp] theorem clearDec_codeChr (s : State) :
    (clearDec s).codeChr = s.codeChr := rfl
@[simp] theorem clearDec_rspSt (s : State) :
    (clearDec s).rspSt = s.rspSt := rfl
@[simp] theorem clearDec_rspCnt (s : State) :
    (clearDec s).rspCnt = s.rspCnt := rfl
@[simp] theorem clearDec_rspDat (s : State) :
    (clearDec s).rspDat = s.rspDat := rfl
@[simp] theorem clearDec_pending (s : State) :
    (clearDec s).pending = s.pending := rfl
@[simp] theorem clearDec_seen (s : State) :
    (clearDec s).seen = s.seen := rfl
@[simp] theorem clearDec_rstSeen (s : State) :
    (clearDec s).rstSeen = s.rstSeen := rfl

@[simp] theorem setDig_encAcc (i : Nat) (h : i < 20) (b : Byte) (s : State) :
    (setDig i h b s).encAcc = s.encAcc := rfl
@[simp] theorem setDig_encN (i : Nat) (h : i < 20) (b : Byte) (s : State) :
    (setDig i h b s).encN = s.encN := rfl
@[simp] theorem setDig_decAcc (i : Nat) (h : i < 20) (b : Byte) (s : State) :
    (setDig i h b s).decAcc = s.decAcc := rfl
@[simp] theorem setDig_decN (i : Nat) (h : i < 20) (b : Byte) (s : State) :
    (setDig i h b s).decN = s.decN := rfl
@[simp] theorem setDig_decStop (i : Nat) (h : i < 20) (b : Byte) (s : State) :
    (setDig i h b s).decStop = s.decStop := rfl
@[simp] theorem setDig_decErr (i : Nat) (h : i < 20) (b : Byte) (s : State) :
    (setDig i h b s).decErr = s.decErr := rfl
@[simp] theorem setDig_dig (i : Nat) (h : i < 20) (b : Byte) (s : State) :
    (setDig i h b s).dig = s.dig.set i b := rfl
@[simp] theorem setDig_trOff (i : Nat) (h : i < 20) (b : Byte) (s : State) :
    (setDig i h b s).trOff = s.trOff := rfl
@[simp] theorem setDig_trBin (i : Nat) (h : i < 20) (b : Byte) (s : State) :
    (setDig i h b s).trBin = s.trBin := rfl
@[simp] theorem setDig_codeVal (i : Nat) (h : i < 20) (b : Byte) (s : State) :
    (setDig i h b s).codeVal = s.codeVal := rfl
@[simp] theorem setDig_codeChr (i : Nat) (h : i < 20) (b : Byte) (s : State) :
    (setDig i h b s).codeChr = s.codeChr := rfl
@[simp] theorem setDig_rspSt (i : Nat) (h : i < 20) (b : Byte) (s : State) :
    (setDig i h b s).rspSt = s.rspSt := rfl
@[simp] theorem setDig_rspCnt (i : Nat) (h : i < 20) (b : Byte) (s : State) :
    (setDig i h b s).rspCnt = s.rspCnt := rfl
@[simp] theorem setDig_rspDat (i : Nat) (h : i < 20) (b : Byte) (s : State) :
    (setDig i h b s).rspDat = s.rspDat := rfl
@[simp] theorem setDig_pending (i : Nat) (h : i < 20) (b : Byte) (s : State) :
    (setDig i h b s).pending = s.pending := rfl
@[simp] theorem setDig_seen (i : Nat) (h : i < 20) (b : Byte) (s : State) :
    (setDig i h b s).seen = s.seen := rfl
@[simp] theorem setDig_rstSeen (i : Nat) (h : i < 20) (b : Byte) (s : State) :
    (setDig i h b s).rstSeen = s.rstSeen := rfl

@[simp] theorem setTr_encAcc (o : BitVec 4) (n : BitVec 31) (s : State) :
    (setTr o n s).encAcc = s.encAcc := rfl
@[simp] theorem setTr_encN (o : BitVec 4) (n : BitVec 31) (s : State) :
    (setTr o n s).encN = s.encN := rfl
@[simp] theorem setTr_decAcc (o : BitVec 4) (n : BitVec 31) (s : State) :
    (setTr o n s).decAcc = s.decAcc := rfl
@[simp] theorem setTr_decN (o : BitVec 4) (n : BitVec 31) (s : State) :
    (setTr o n s).decN = s.decN := rfl
@[simp] theorem setTr_decStop (o : BitVec 4) (n : BitVec 31) (s : State) :
    (setTr o n s).decStop = s.decStop := rfl
@[simp] theorem setTr_decErr (o : BitVec 4) (n : BitVec 31) (s : State) :
    (setTr o n s).decErr = s.decErr := rfl
@[simp] theorem setTr_dig (o : BitVec 4) (n : BitVec 31) (s : State) :
    (setTr o n s).dig = s.dig := rfl
@[simp] theorem setTr_trOff (o : BitVec 4) (n : BitVec 31) (s : State) :
    (setTr o n s).trOff = o := rfl
@[simp] theorem setTr_trBin (o : BitVec 4) (n : BitVec 31) (s : State) :
    (setTr o n s).trBin = n := rfl
@[simp] theorem setTr_codeVal (o : BitVec 4) (n : BitVec 31) (s : State) :
    (setTr o n s).codeVal = s.codeVal := rfl
@[simp] theorem setTr_codeChr (o : BitVec 4) (n : BitVec 31) (s : State) :
    (setTr o n s).codeChr = s.codeChr := rfl
@[simp] theorem setTr_rspSt (o : BitVec 4) (n : BitVec 31) (s : State) :
    (setTr o n s).rspSt = s.rspSt := rfl
@[simp] theorem setTr_rspCnt (o : BitVec 4) (n : BitVec 31) (s : State) :
    (setTr o n s).rspCnt = s.rspCnt := rfl
@[simp] theorem setTr_rspDat (o : BitVec 4) (n : BitVec 31) (s : State) :
    (setTr o n s).rspDat = s.rspDat := rfl
@[simp] theorem setTr_pending (o : BitVec 4) (n : BitVec 31) (s : State) :
    (setTr o n s).pending = s.pending := rfl
@[simp] theorem setTr_seen (o : BitVec 4) (n : BitVec 31) (s : State) :
    (setTr o n s).seen = s.seen := rfl
@[simp] theorem setTr_rstSeen (o : BitVec 4) (n : BitVec 31) (s : State) :
    (setTr o n s).rstSeen = s.rstSeen := rfl

@[simp] theorem setCode_encAcc (v : BitVec 20) (c : Vector Byte 6) (s : State) :
    (setCode v c s).encAcc = s.encAcc := rfl
@[simp] theorem setCode_encN (v : BitVec 20) (c : Vector Byte 6) (s : State) :
    (setCode v c s).encN = s.encN := rfl
@[simp] theorem setCode_decAcc (v : BitVec 20) (c : Vector Byte 6) (s : State) :
    (setCode v c s).decAcc = s.decAcc := rfl
@[simp] theorem setCode_decN (v : BitVec 20) (c : Vector Byte 6) (s : State) :
    (setCode v c s).decN = s.decN := rfl
@[simp] theorem setCode_decStop (v : BitVec 20) (c : Vector Byte 6) (s : State) :
    (setCode v c s).decStop = s.decStop := rfl
@[simp] theorem setCode_decErr (v : BitVec 20) (c : Vector Byte 6) (s : State) :
    (setCode v c s).decErr = s.decErr := rfl
@[simp] theorem setCode_dig (v : BitVec 20) (c : Vector Byte 6) (s : State) :
    (setCode v c s).dig = s.dig := rfl
@[simp] theorem setCode_trOff (v : BitVec 20) (c : Vector Byte 6) (s : State) :
    (setCode v c s).trOff = s.trOff := rfl
@[simp] theorem setCode_trBin (v : BitVec 20) (c : Vector Byte 6) (s : State) :
    (setCode v c s).trBin = s.trBin := rfl
@[simp] theorem setCode_codeVal (v : BitVec 20) (c : Vector Byte 6) (s : State) :
    (setCode v c s).codeVal = v := rfl
@[simp] theorem setCode_codeChr (v : BitVec 20) (c : Vector Byte 6) (s : State) :
    (setCode v c s).codeChr = c := rfl
@[simp] theorem setCode_rspSt (v : BitVec 20) (c : Vector Byte 6) (s : State) :
    (setCode v c s).rspSt = s.rspSt := rfl
@[simp] theorem setCode_rspCnt (v : BitVec 20) (c : Vector Byte 6) (s : State) :
    (setCode v c s).rspCnt = s.rspCnt := rfl
@[simp] theorem setCode_rspDat (v : BitVec 20) (c : Vector Byte 6) (s : State) :
    (setCode v c s).rspDat = s.rspDat := rfl
@[simp] theorem setCode_pending (v : BitVec 20) (c : Vector Byte 6) (s : State) :
    (setCode v c s).pending = s.pending := rfl
@[simp] theorem setCode_seen (v : BitVec 20) (c : Vector Byte 6) (s : State) :
    (setCode v c s).seen = s.seen := rfl
@[simp] theorem setCode_rstSeen (v : BitVec 20) (c : Vector Byte 6) (s : State) :
    (setCode v c s).rstSeen = s.rstSeen := rfl

@[simp] theorem applyReset_encAcc (s : State) :
    (applyReset s).encAcc = State.reset.encAcc := rfl
@[simp] theorem applyReset_encN (s : State) :
    (applyReset s).encN = State.reset.encN := rfl
@[simp] theorem applyReset_decAcc (s : State) :
    (applyReset s).decAcc = State.reset.decAcc := rfl
@[simp] theorem applyReset_decN (s : State) :
    (applyReset s).decN = State.reset.decN := rfl
@[simp] theorem applyReset_decStop (s : State) :
    (applyReset s).decStop = State.reset.decStop := rfl
@[simp] theorem applyReset_decErr (s : State) :
    (applyReset s).decErr = State.reset.decErr := rfl
@[simp] theorem applyReset_dig (s : State) :
    (applyReset s).dig = State.reset.dig := rfl
@[simp] theorem applyReset_trOff (s : State) :
    (applyReset s).trOff = State.reset.trOff := rfl
@[simp] theorem applyReset_trBin (s : State) :
    (applyReset s).trBin = State.reset.trBin := rfl
@[simp] theorem applyReset_codeVal (s : State) :
    (applyReset s).codeVal = State.reset.codeVal := rfl
@[simp] theorem applyReset_codeChr (s : State) :
    (applyReset s).codeChr = State.reset.codeChr := rfl
@[simp] theorem applyReset_rspSt (s : State) :
    (applyReset s).rspSt = State.reset.rspSt := rfl
@[simp] theorem applyReset_rspCnt (s : State) :
    (applyReset s).rspCnt = State.reset.rspCnt := rfl
@[simp] theorem applyReset_rspDat (s : State) :
    (applyReset s).rspDat = State.reset.rspDat := rfl
@[simp] theorem applyReset_pending (s : State) :
    (applyReset s).pending = s.pending := rfl
@[simp] theorem applyReset_seen (s : State) :
    (applyReset s).seen = s.seen := rfl
@[simp] theorem applyReset_rstSeen (s : State) :
    (applyReset s).rstSeen = true := rfl

@[simp] theorem record_encAcc (x : HostSeen) (s : State) :
    (record x s).encAcc = s.encAcc := rfl
@[simp] theorem record_encN (x : HostSeen) (s : State) :
    (record x s).encN = s.encN := rfl
@[simp] theorem record_decAcc (x : HostSeen) (s : State) :
    (record x s).decAcc = s.decAcc := rfl
@[simp] theorem record_decN (x : HostSeen) (s : State) :
    (record x s).decN = s.decN := rfl
@[simp] theorem record_decStop (x : HostSeen) (s : State) :
    (record x s).decStop = s.decStop := rfl
@[simp] theorem record_decErr (x : HostSeen) (s : State) :
    (record x s).decErr = s.decErr := rfl
@[simp] theorem record_dig (x : HostSeen) (s : State) :
    (record x s).dig = s.dig := rfl
@[simp] theorem record_trOff (x : HostSeen) (s : State) :
    (record x s).trOff = s.trOff := rfl
@[simp] theorem record_trBin (x : HostSeen) (s : State) :
    (record x s).trBin = s.trBin := rfl
@[simp] theorem record_codeVal (x : HostSeen) (s : State) :
    (record x s).codeVal = s.codeVal := rfl
@[simp] theorem record_codeChr (x : HostSeen) (s : State) :
    (record x s).codeChr = s.codeChr := rfl
@[simp] theorem record_rspSt (x : HostSeen) (s : State) :
    (record x s).rspSt = s.rspSt := rfl
@[simp] theorem record_rspCnt (x : HostSeen) (s : State) :
    (record x s).rspCnt = s.rspCnt := rfl
@[simp] theorem record_rspDat (x : HostSeen) (s : State) :
    (record x s).rspDat = s.rspDat := rfl
@[simp] theorem record_pending (x : HostSeen) (s : State) :
    (record x s).pending = s.pending := rfl
@[simp] theorem record_seen (x : HostSeen) (s : State) :
    (record x s).seen = s.seen ++ [x] := rfl
@[simp] theorem record_rstSeen (x : HostSeen) (s : State) :
    (record x s).rstSeen = s.rstSeen := rfl

@[simp] theorem setPending_encAcc (p : List HostAction) (s : State) :
    (setPending p s).encAcc = s.encAcc := rfl
@[simp] theorem setPending_encN (p : List HostAction) (s : State) :
    (setPending p s).encN = s.encN := rfl
@[simp] theorem setPending_decAcc (p : List HostAction) (s : State) :
    (setPending p s).decAcc = s.decAcc := rfl
@[simp] theorem setPending_decN (p : List HostAction) (s : State) :
    (setPending p s).decN = s.decN := rfl
@[simp] theorem setPending_decStop (p : List HostAction) (s : State) :
    (setPending p s).decStop = s.decStop := rfl
@[simp] theorem setPending_decErr (p : List HostAction) (s : State) :
    (setPending p s).decErr = s.decErr := rfl
@[simp] theorem setPending_dig (p : List HostAction) (s : State) :
    (setPending p s).dig = s.dig := rfl
@[simp] theorem setPending_trOff (p : List HostAction) (s : State) :
    (setPending p s).trOff = s.trOff := rfl
@[simp] theorem setPending_trBin (p : List HostAction) (s : State) :
    (setPending p s).trBin = s.trBin := rfl
@[simp] theorem setPending_codeVal (p : List HostAction) (s : State) :
    (setPending p s).codeVal = s.codeVal := rfl
@[simp] theorem setPending_codeChr (p : List HostAction) (s : State) :
    (setPending p s).codeChr = s.codeChr := rfl
@[simp] theorem setPending_rspSt (p : List HostAction) (s : State) :
    (setPending p s).rspSt = s.rspSt := rfl
@[simp] theorem setPending_rspCnt (p : List HostAction) (s : State) :
    (setPending p s).rspCnt = s.rspCnt := rfl
@[simp] theorem setPending_rspDat (p : List HostAction) (s : State) :
    (setPending p s).rspDat = s.rspDat := rfl
@[simp] theorem setPending_pending (p : List HostAction) (s : State) :
    (setPending p s).pending = p := rfl
@[simp] theorem setPending_seen (p : List HostAction) (s : State) :
    (setPending p s).seen = s.seen := rfl
@[simp] theorem setPending_rstSeen (p : List HostAction) (s : State) :
    (setPending p s).rstSeen = s.rstSeen := rfl

/-- A block that has been reset is booted as it stands (R222). -/
@[simp] theorem booted_of_rstSeen (s : State) (h : s.rstSeen = true) : booted s = s := if_pos h

/-- A block that was never reset is booted by a reset (R221, R222). -/
@[simp] theorem booted_of_never_reset (s : State) (h : s.rstSeen = false) : booted s = applyReset s := by
  simp [booted, h]

@[simp] theorem booted_rstSeen (s : State) : (booted s).rstSeen = true := by
  unfold booted
  split <;> simp [*]
@[simp] theorem booted_pending (s : State) : (booted s).pending = s.pending := by
  unfold booted
  split <;> rfl
@[simp] theorem booted_seen (s : State) : (booted s).seen = s.seen := by
  unfold booted
  split <;> rfl

/-- `present` is the booted block with one more action at the head: its fields are those of `setPending`. -/
theorem present_eq (w : CommandWord) (s : State) :
    present w s = setPending (.command w :: s.pending) (booted s) := rfl
@[simp] theorem present_pending (w : CommandWord) (s : State) :
    (present w s).pending = .command w :: s.pending := rfl
@[simp] theorem present_seen (w : CommandWord) (s : State) : (present w s).seen = s.seen := booted_seen s
@[simp] theorem present_rstSeen (w : CommandWord) (s : State) : (present w s).rstSeen = true := booted_rstSeen s

end Sys2Proof.Machine
end

