-- ==== Sys2Proof/Laws/Ops.lean ====
section
/-! SUPPORT. What each shared operation of the commands can do, said once: the response, the encoder's and the
decoder's feed, truncation, code digits, the character classes. -/

namespace Sys2Proof.Machine

/-- The response registers after `respond`, for every byte list the response rule takes (R101). -/
theorem answers_respond (st : Status) (out : List Byte) (s : State) (h : WellFormed.response out = true) :
    Answers (respond st out s) st out := by
  have h8 : out.length ≤ 8 := by simpa [WellFormed.response] using h
  refine ⟨rfl, ?_, ?_⟩
  · simp only [respond_rspCnt, BitVec.toNat_ofNat]; omega
  · intro k; fin_cases k <;> rfl

/-- `respond` writes the response registers only (R101). -/
theorem respond_frame (st : Status) (out : List Byte) (s : State) : UnitsSame s (respond st out s) :=
  ⟨⟨rfl, rfl⟩, ⟨rfl, rfl, rfl, rfl⟩, ⟨rfl, ⟨rfl, rfl⟩, ⟨rfl, rfl⟩⟩, rfl, rfl, rfl⟩

/-- `raise` is the response of an error with no bytes (R15). -/
theorem raise_eq (st : Status) (s : State) : raise st s = respond st [] s := rfl

/-- The alphabet's codes (R10, R11). -/
theorem alpha_toNat (v : BitVec 5) :
    (alpha v).toNat = if v.toNat < 26 then 0x41 + v.toNat else 0x32 + (v.toNat - 26) := by
  revert v; decide

/-- The decoder reads back every alphabet code with its value (R10, R140). -/
theorem classify_alpha (v : BitVec 5) : classify (charOfByte (alpha v)) = .alphabet v := by
  revert v; decide

/-- The pad character's class (R140). -/
theorem classify_pad : classify Config.padChar = .pad := by decide

/-- The classes by ranges of the code (R140). -/
theorem classify_eq_alphabet_iff (c : CharCode) (v : BitVec 5) : classify c = .alphabet v ↔
    (0x41 ≤ c.toNat ∧ c.toNat ≤ 0x5A ∧ v.toNat = c.toNat - 0x41) ∨
    (0x32 ≤ c.toNat ∧ c.toNat ≤ 0x37 ∧ v.toNat = c.toNat - 0x32 + 26) := by
  have hv := v.isLt
  unfold classify
  split
  · rw [CharClass.alphabet.injEq, ← BitVec.toNat_inj, BitVec.toNat_ofNat]; omega
  · split
    · rw [CharClass.alphabet.injEq, ← BitVec.toNat_inj, BitVec.toNat_ofNat]; omega
    · split <;> simp only [reduceCtorEq, false_iff] <;> omega

/-- The pad class is the one code 0x3D (R140). -/
theorem classify_eq_pad_iff (c : CharCode) : classify c = .pad ↔ c = Config.padChar := by
  unfold classify
  split
  · simp only [reduceCtorEq, false_iff]; rintro rfl; revert ‹_ ∧ _›; decide
  · split
    · simp only [reduceCtorEq, false_iff]; rintro rfl; revert ‹_ ∧ _›; decide
    · split <;> simp_all

/-- A group is its number mod 32 (R132). -/
theorem group5_eq (x : Nat) : group5 x = BitVec.ofNat 5 x := by
  apply BitVec.eq_of_toNat_eq
  have : (0x1F : Nat) = 2 ^ 5 - 1 := rfl
  simp only [group5, this, Nat.and_two_pow_sub_one_eq_mod, BitVec.toNat_ofNat, Nat.mod_mod]

/-- `t & mask(m)` is `t mod 2^m` (R13). -/
theorem and_maskBits (t m : Nat) : t &&& maskBits m = t % 2 ^ m := Nat.and_two_pow_sub_one_eq_mod t m

/-- The encoder's `t` is the residual followed by the byte (R132). -/
theorem enc_word (a : BitVec 4) (b : Byte) : (a.toNat <<< 8) ||| b.toNat = a.toNat * 256 + b.toNat := by
  rw [← Nat.shiftLeft_add_eq_or_of_lt b.isLt, Nat.shiftLeft_eq]

/-- The decoder's `t` is the residual followed by the five bits (R143). -/
theorem dec_word (a : Nat) (v : BitVec 5) : (a <<< 5) ||| v.toNat = a * 32 + v.toNat := by
  rw [← Nat.shiftLeft_add_eq_or_of_lt v.isLt, Nat.shiftLeft_eq]

/-- One byte through the encoder with `ENC_N` at most 1: one character (R132, R136). -/
theorem encFeed_one (a : BitVec 4) (n : BitVec 3) (b : Byte) (h : n.toNat ≤ 1) :
    encFeed a n b =
      ([alpha (BitVec.ofNat 5 ((a.toNat * 256 + b.toNat) / 2 ^ (n.toNat + 3)))],
        BitVec.ofNat 4 ((a.toNat * 256 + b.toNat) % 2 ^ (n.toNat + 3)), BitVec.ofNat 3 (n.toNat + 3)) := by
  have h1 : 5 ≤ n.toNat + 8 := by omega
  have h2 : ¬5 ≤ n.toNat + 3 := by omega
  have h3 : n.toNat + 8 - 5 = n.toNat + 3 := by omega
  simp only [encFeed, encGroups, if_pos h1, if_neg h2, enc_word, and_maskBits, group5_eq, Nat.shiftRight_eq_div_pow,
    List.nil_append, h3]

/-- One byte through the encoder with `ENC_N` in 2..4: two characters (R132, R136). -/
theorem encFeed_two (a : BitVec 4) (n : BitVec 3) (b : Byte) (h2 : 2 ≤ n.toNat) (h4 : n.toNat ≤ 4) :
    encFeed a n b =
      ([alpha (BitVec.ofNat 5 ((a.toNat * 256 + b.toNat) / 2 ^ (n.toNat + 3))),
        alpha (BitVec.ofNat 5 ((a.toNat * 256 + b.toNat) / 2 ^ (n.toNat - 2)))],
        BitVec.ofNat 4 ((a.toNat * 256 + b.toNat) % 2 ^ (n.toNat - 2)), BitVec.ofNat 3 (n.toNat - 2)) := by
  have e1 : 5 ≤ n.toNat + 8 := by omega
  have e2 : 5 ≤ n.toNat + 3 := by omega
  have e3 : ¬5 ≤ n.toNat - 2 := by omega
  have e4 : n.toNat + 8 - 5 = n.toNat + 3 := by omega
  have e5 : n.toNat + 3 - 5 = n.toNat - 2 := by omega
  simp only [encFeed, encGroups, if_pos e1, if_pos e2, if_neg e3, enc_word, and_maskBits, group5_eq,
    Nat.shiftRight_eq_div_pow, List.nil_append, List.cons_append, e5, e4]

/-- The encoder's loop emits at most as many characters as its fuel, each from the alphabet (R137). -/
theorem encGroups_alphabet (fuel t m : Nat) (out : List Byte) (h : ∀ b ∈ out, ∃ v, b = alpha v) :
    (encGroups fuel t m out).1.length ≤ out.length + fuel ∧ ∀ b ∈ (encGroups fuel t m out).1, ∃ v, b = alpha v := by
  induction fuel generalizing m out with
  | zero => exact ⟨Nat.le_refl _, h⟩
  | succ k ih =>
    unfold encGroups
    split
    · have h' : ∀ b ∈ out ++ [alpha (group5 (t >>> (m - 5)))], ∃ v, b = alpha v := by
        intro b hb
        rcases List.mem_append.mp hb with hb | hb
        · exact h b hb
        · exact ⟨_, List.mem_singleton.mp hb⟩
      obtain ⟨h1, h2⟩ := ih (m - 5) _ h'
      refine ⟨?_, h2⟩
      simp only [List.length_append, List.length_singleton] at h1
      omega
    · exact ⟨by simp, h⟩

/-- Whatever the registers hold, one byte through the encoder emits at most 3 characters, all from the alphabet. -/
theorem encFeed_alphabet (a : BitVec 4) (n : BitVec 3) (b : Byte) :
    (encFeed a n b).1.length ≤ 3 ∧ ∀ x ∈ (encFeed a n b).1, ∃ v, x = alpha v := by
  have := encGroups_alphabet 3 ((a.toNat <<< 8) ||| b.toNat) (n.toNat + 8) [] (by simp)
  simpa [encFeed] using this

/-- The last character of a stream (R133). -/
theorem encFlush_eq (a : BitVec 4) (n : BitVec 3) :
    encFlush a n = if n = 0 then [] else [alpha (BitVec.ofNat 5 (a.toNat * 2 ^ (5 - n.toNat)))] := by
  unfold encFlush
  by_cases h : n = 0
  · subst h; rfl
  · have : 0 < n.toNat := by
      rcases Nat.eq_zero_or_pos n.toNat with h0 | h0
      · exact absurd (BitVec.eq_of_toNat_eq h0) h
      · exact h0
    rw [if_pos this, if_neg h, group5_eq, Nat.shiftLeft_eq]

/-- One character through the decoder with `DEC_N` at most 2: no byte (R143, R147). -/
theorem decFeed_none (a : BitVec 7) (n : BitVec 3) (v : BitVec 5) (h : n.toNat ≤ 2) :
    decFeed a n v =
      ([], BitVec.ofNat 7 ((a.toNat * 32 + v.toNat) % 2 ^ (n.toNat + 5)), BitVec.ofNat 3 (n.toNat + 5)) := by
  have h1 : ¬8 ≤ n.toNat + 5 := by omega
  simp only [decFeed, if_neg h1, dec_word, and_maskBits]

/-- One character through the decoder with `DEC_N` in 3..7: one byte (R143, R147). -/
theorem decFeed_one (a : BitVec 7) (n : BitVec 3) (v : BitVec 5) (h : 3 ≤ n.toNat) :
    decFeed a n v =
      ([BitVec.ofNat 8 ((a.toNat * 32 + v.toNat) / 2 ^ (n.toNat - 3))],
        BitVec.ofNat 7 ((a.toNat * 32 + v.toNat) % 2 ^ (n.toNat - 3)), BitVec.ofNat 3 (n.toNat - 3)) := by
  have h1 : 8 ≤ n.toNat + 5 := by omega
  have h2 : n.toNat + 5 - 8 = n.toNat - 3 := by omega
  have h3 : (0xFF : Nat) = 2 ^ 8 - 1 := rfl
  have h4 (x : Nat) : BitVec.ofNat 8 (x % 2 ^ 8) = BitVec.ofNat 8 x := by
    apply BitVec.eq_of_toNat_eq; simp
  simp only [decFeed, if_pos h1, dec_word, and_maskBits, h2, h3, Nat.and_two_pow_sub_one_eq_mod, h4,
    Nat.shiftRight_eq_div_pow]

/-- The truncation offset is the last byte's low nibble (R170). -/
theorem dtOffset_toNat (h : Digest) : (dtOffset h).toNat = (h[19]).toNat % 16 := by
  have : (0x0F : Nat) = 2 ^ 4 - 1 := rfl
  simp only [dtOffset, Config.offsetMask, this, Nat.and_two_pow_sub_one_eq_mod, BitVec.toNat_ofNat, Nat.mod_mod]

/-- The truncated value as a sum of its four bytes (R170). -/
theorem dtBinary_toNat (h : Digest) :
    (dtBinary h).toNat = dtByte h (dtOffset h) 0 % 128 * 2 ^ 24 + dtByte h (dtOffset h) 1 * 2 ^ 16 +
      dtByte h (dtOffset h) 2 * 2 ^ 8 + dtByte h (dtOffset h) 3 := by
  have b (k : Fin 4) : dtByte h (dtOffset h) k < 256 := BitVec.isLt _
  have m7 : (0x7F : Nat) = 2 ^ 7 - 1 := rfl
  have m8 : (0xFF : Nat) = 2 ^ 8 - 1 := rfl
  have h1 := b 1
  have h2 := b 2
  have h3 := b 3
  have h0 : dtByte h (dtOffset h) 0 % 128 < 128 := Nat.mod_lt _ (by decide)
  simp only [dtBinary, Config.topMask, m7, m8, Nat.and_two_pow_sub_one_eq_mod, BitVec.toNat_ofNat]
  generalize dtByte h (dtOffset h) 0 % 2 ^ 7 = x0 at *
  generalize dtByte h (dtOffset h) 1 = x1 at *
  generalize dtByte h (dtOffset h) 2 = x2 at *
  generalize dtByte h (dtOffset h) 3 = x3 at *
  rw [Nat.mod_eq_of_lt h1, Nat.mod_eq_of_lt h2, Nat.mod_eq_of_lt h3]
  have e1 : x0 <<< 24 ||| x1 <<< 16 = (x0 * 256 + x1) <<< 16 := by
    rw [show x0 <<< 24 = (x0 <<< 8) <<< 16 by rw [← Nat.shiftLeft_add], ← Nat.shiftLeft_or_distrib,
      ← Nat.shiftLeft_add_eq_or_of_lt (by omega), Nat.shiftLeft_eq x0 8]
  have e2 : (x0 * 256 + x1) <<< 16 ||| x2 <<< 8 = ((x0 * 256 + x1) * 256 + x2) <<< 8 := by
    rw [show (x0 * 256 + x1) <<< 16 = ((x0 * 256 + x1) <<< 8) <<< 8 by rw [← Nat.shiftLeft_add],
      ← Nat.shiftLeft_or_distrib, ← Nat.shiftLeft_add_eq_or_of_lt (by omega), Nat.shiftLeft_eq (_ + x1) 8]
  rw [e1, e2, ← Nat.shiftLeft_add_eq_or_of_lt (by omega), Nat.shiftLeft_eq]
  omega

/-- A digit character's code (R171). -/
theorem codeDigit_toNat (v k : Nat) : (codeDigit v k).toNat = 0x30 + v / 10 ^ (5 - k) % 10 := by
  simp only [codeDigit, digitChar, BitVec.toNat_ofNat]
  omega

/-- The six characters by index (R171). -/
theorem codeChars_get (v : Nat) (k : Fin 6) : (codeChars v)[k] = codeDigit v k.val := by
  fin_cases k <;> rfl

/-- A code value is below 1000000 (R171, R177). -/
theorem codeValue_lt (bin : BitVec 31) : codeValue bin < 1000000 := Nat.mod_lt _ (by decide)

end Sys2Proof.Machine
end

