-- ==== Sys2Proof/Laws/Exec.lean ====
section
/-! SUPPORT. What one instruction can do, said once: every meaning ends in a response over registers in which the
host's side is untouched; and how a command word reaches its meaning. -/

namespace Sys2Proof

/-- An opcode outside the map is rejected by name (R85). -/
theorem decodeFields_of_not_assigned (op : BitVec 8) (d : Data) (h : op ∉ Machine.assignedOpcodes) :
    decodeFields op d = .error (.unassignedOpcode op) := by
  simp only [Machine.assignedOpcodes, List.mem_cons, List.not_mem_nil, or_false, not_or] at h
  obtain ⟨h0, h1, h2, h3, h4, h5, h6, h7, h8, h9, h10, h11⟩ := h
  simp only [decodeFields, if_neg h0, if_neg h1, if_neg h2, if_neg h3, if_neg h4, if_neg h5, if_neg h6, if_neg h7,
    if_neg h8, if_neg h9, if_neg h10, if_neg h11]

end Sys2Proof

namespace Sys2Proof.Machine

/-- The inversion lemma of `exec`: it answers a next state, which is a response of at most 8 bytes (none on an error)
over a state in which the host's side is as it was. -/
theorem exec_responds (i : Instr) (s : State) : ∃ st out u, exec i s = .next (respond st out u) ∧
    out.length ≤ 8 ∧ (st = .ok ∨ out = []) ∧ HostSame s u := by
  rcases i with _ | _ | b | _ | _ | c | _ | n | ⟨i, b⟩ | _ | _ | _
  case b32dChar =>
    show ∃ st out u, execB32dChar c s = _ ∧ _
    unfold execB32dChar
    repeat' split
    case _ => exact ⟨_, _, _, rfl, by simp, .inr rfl, rfl, rfl, rfl⟩
    case _ => exact ⟨_, _, _, rfl, by simp, .inl rfl, rfl, rfl, rfl⟩
    case _ => exact ⟨_, _, _, rfl, by simp, .inl rfl, rfl, rfl, rfl⟩
    case _ =>
      refine ⟨_, _, _, rfl, ?_, .inl rfl, rfl, rfl, rfl⟩
      unfold decFeed
      dsimp only
      split <;> simp
    case _ => exact ⟨_, _, _, rfl, by simp, .inr rfl, rfl, rfl, rfl⟩
  case htDig =>
    show ∃ st out u, execHtDig i b s = _ ∧ _
    unfold execHtDig
    split
    · exact ⟨_, _, _, rfl, by simp, .inl rfl, rfl, rfl, rfl⟩
    · exact ⟨_, _, _, rfl, by simp, .inr rfl, rfl, rfl, rfl⟩
  case b32eByte =>
    have h := (encFeed_alphabet s.encAcc s.encN b).1
    exact ⟨_, _, _, rfl, by omega, .inl rfl, rfl, rfl, rfl⟩
  case b32eFin => exact ⟨_, _, _, rfl, by unfold encFlush; split <;> simp, .inl rfl, rfl, rfl, rfl⟩
  case b32dFin => exact ⟨_, _, _, rfl, by simp, .inr rfl, rfl, rfl, rfl⟩
  all_goals exact ⟨_, _, _, rfl, by simp [intToBytes, truncBytes], .inl rfl, rfl, rfl, rfl⟩

/-- A command word by its fields runs what the decoder reads from them (R80, R100). -/
theorem acceptCommand_commandWord (op : BitVec 8) (d : Data) (s : State) :
    acceptCommand (commandWord op d) s =
      match decodeFields op d with
      | .ok i => exec i s
      | .error _ => execUnassigned s := by
  rw [acceptCommand, decode_commandWord]
  rcases decodeFields op d with ⟨op'⟩ | i <;> rfl

/-- After the first reset the command port is the block's step (R100). -/
@[simp] theorem portCommand_of_rstSeen (w : CommandWord) (s : State) (h : s.rstSeen = true) :
    portCommand w s = acceptCommand w s := if_pos h

/-- Before it the command port refuses every word (R221). -/
@[simp] theorem portCommand_of_never_reset (w : CommandWord) (s : State) (h : s.rstSeen = false) :
    portCommand w s = .refused .beforeFirstReset := by
  simp [portCommand, h]

/-- The inversion lemma of a command word: like an instruction, it answers a response of at most 8 bytes over a state
in which the host's side is as it was, assigned opcode or not. -/
theorem acceptCommand_responds (w : CommandWord) (s : State) : ∃ st out u,
    acceptCommand w s = .next (respond st out u) ∧ out.length ≤ 8 ∧ (st = .ok ∨ out = []) ∧ HostSame s u := by
  unfold acceptCommand
  split
  case _ i _ => exact exec_responds i s
  case _ => exact ⟨_, _, s, rfl, by simp, .inr rfl, rfl, rfl, rfl⟩

/-- After the first reset the host's issuing of a command answers, with the host's side as it was (R100, R221). -/
theorem issue_of_rstSeen (i : Instr) (s : State) (h : s.rstSeen = true) :
    ∃ t, issue i s = .next t ∧ HostSame s t := by
  obtain ⟨st, out, u, hx, -, -, hu⟩ := acceptCommand_responds (encode i) s
  exact ⟨_, (portCommand_of_rstSeen _ _ h).trans hx, hu⟩

/-- Before it the host's issuing of a command is refused (R221). -/
theorem issue_of_never_reset (i : Instr) (s : State) (h : s.rstSeen = false) :
    issue i s = .refused .beforeFirstReset := portCommand_of_never_reset _ _ h

end Sys2Proof.Machine
end

