-- ==== Sys2Proof/Laws/PerInstr.lean ====
section
/-! SUPPORT. Facts about every instruction as syntax, one lemma per constructor. -/

namespace Sys2Proof.Laws.EncodingFields

/-- The encoding holds the instruction's opcode and operand at their places, its opcode is in the opcode map in a row
of the instruction's unit, and no bit outside the row's operand format is set (R80, R81, R82, R86). -/
def Statement (i : Instr) : Prop :=
  opOf (encode i) = i.opcode ∧ dataOf (encode i) = i.operand ∧
    (∃ r ∈ opcodeMap, r.op = i.opcode ∧ r.unit = i.unit) ∧
    i.operand &&& (formatOf i.opcode).mask = i.operand

theorem of_parts (i : Instr) (h : ∃ r ∈ opcodeMap, r.op = i.opcode ∧ r.unit = i.unit)
    (hm : i.operand &&& (formatOf i.opcode).mask = i.operand) : Statement i :=
  ⟨opOf_commandWord _ _, dataOf_commandWord _ _, h, hm⟩

/-- A value of at most `k` bits is unchanged by the mask of its `k` low bits. -/
theorem and_lowMask {w : Nat} (v : BitVec w) (m : Data) (h : m.toNat = 2 ^ w - 1) (hw : w ≤ 64) :
    v.setWidth 64 &&& m = v.setWidth 64 := by
  apply BitVec.eq_of_toNat_eq
  have hv : v.toNat < 2 ^ w := v.isLt
  have hp : 2 ^ w ≤ 2 ^ 64 := Nat.pow_le_pow_right (by decide) hw
  rw [BitVec.toNat_and, h, Nat.and_two_pow_sub_one_eq_mod, BitVec.toNat_setWidth,
    Nat.mod_eq_of_lt (Nat.lt_of_lt_of_le hv hp), Nat.mod_eq_of_lt hv]

theorem nop : Statement .nop := of_parts _ (by decide) (by decide)
theorem b32eClr : Statement .b32eClr := of_parts _ (by decide) (by decide)
theorem b32eByte (b : Byte) : Statement (.b32eByte b) :=
  of_parts _ ⟨⟨0x11, "B32E.BYTE", .byte, .encoder⟩, by decide, rfl, rfl⟩ (and_lowMask b 0xFF (by decide) (by decide))
theorem b32eFin : Statement .b32eFin := of_parts _ (by decide) (by decide)
theorem b32dClr : Statement .b32dClr := of_parts _ (by decide) (by decide)
theorem b32dChar (c : CharCode) : Statement (.b32dChar c) :=
  of_parts _ ⟨⟨0x21, "B32D.CHAR", .character, .decoder⟩, by decide, rfl, rfl⟩
    (and_lowMask c 0xFFFFFFFF (by decide) (by decide))
theorem b32dFin : Statement .b32dFin := of_parts _ (by decide) (by decide)
theorem be64 (n : Data) : Statement (.be64 n) :=
  of_parts _ ⟨⟨0x30, "BE64", .word, .counter⟩, by decide, rfl, rfl⟩ (BitVec.and_allOnes (x := n))
theorem htDig (i b : Byte) : Statement (.htDig i b) :=
  of_parts _ ⟨⟨0x40, "HT.DIG", .indexedByte, .hotp⟩, by decide, rfl, rfl⟩
    (and_lowMask (i ++ b) 0xFFFF (by decide) (by decide))
theorem htTrunc : Statement .htTrunc := of_parts _ (by decide) (by decide)
theorem htCode : Statement .htCode := of_parts _ (by decide) (by decide)
theorem htHotp : Statement .htHotp := of_parts _ (by decide) (by decide)

end Sys2Proof.Laws.EncodingFields
end

