-- ==== Sys2Proof/Tests/Slice0.lean ====
section
/-! SUPPORT. Tests of single commands with the expected values of spec/95_test_vectors.md (the vector is named at
each), the smoke test of WellFormed, and for every statement with hypotheses a witness that meets them. -/

namespace Sys2Proof.Tests

open Sys2Proof Sys2Proof.Machine

/-- The outcome is a next state with this property. -/
def holds (o : Result) (p : State → Bool) : Bool :=
  match o with
  | .next t => p t
  | .fault _ => false
  | .refused _ => false

/-- The outcome is a next state that answers with this status and these bytes. -/
def answers (o : Result) (st : Status) (out : List Byte) : Bool :=
  holds o fun t => decide (t.rspSt = st) && decide ((responseOf t).bytes = out)

/-- A state with the encoder's residual set. -/
def withEnc (acc : BitVec 4) (n : BitVec 3) : State := setEnc acc n State.reset

/-- A state with the decoder's residual set. -/
def withDec (acc : BitVec 7) (n : BitVec 3) : State := setDec acc n State.reset

/-- A state with a digest loaded. -/
def withDig (h : Digest) : State := { State.reset with dig := h }

/-- The digest of V-HT-4. -/
def digestHt4 : Digest :=
  #v[0x1F, 0x86, 0x98, 0x69, 0x0E, 0x02, 0xCA, 0x16, 0x61, 0x85, 0x50, 0xEF, 0x7F, 0x19, 0xDA, 0x8E, 0x94, 0x5B,
     0x55, 0x5A]

/-- The digest of V-HT-13 (S7). -/
def digestHt13 : Digest :=
  #v[0x9B, 0x02, 0x90, 0xAC, 0x0C, 0x87, 0x70, 0x0B, 0x4C, 0x09, 0x09, 0xD4, 0xA5, 0x68, 0xE5, 0x2F, 0x51, 0x1B,
     0x1B, 0xA6]

/-! ## WellFormed: each check refuses an ill-formed term -/

theorem test_rawCommand_refuses_wide_op : WellFormed.rawCommand 256 0 = false := by decide
theorem test_rawCommand_refuses_wide_data : WellFormed.rawCommand 0xFF (2 ^ 64) = false := by decide
theorem test_commandOfRaw_refuses : commandOfRaw 256 0 = none := by decide
theorem test_response_refuses_nine_bytes : WellFormed.response [0, 0, 0, 0, 0, 0, 0, 0, 0] = false := by decide
theorem test_immediate_refuses_256 : WellFormed.immediate 8 256 = false := by decide
theorem test_immediate_refuses_negative : WellFormed.immediate 8 (-1) = false := by decide
theorem test_immediate64_refuses_wide : WellFormed.immediate64 (2 ^ 64) = false := by decide
theorem test_digestList_refuses_19 : WellFormed.digestList (List.replicate 19 0) = false := by decide
theorem test_wellFormed_accepts : WellFormed.rawCommand 0xFF (2 ^ 64 - 1) = true ∧
    WellFormed.response [0, 0, 0, 0, 0, 0, 0, 0] = true ∧ WellFormed.immediate 8 255 = true ∧
    WellFormed.immediate64 (-1) = true ∧ WellFormed.digestList (List.replicate 20 0) = true := by decide

/-! ## Decoding: a word written out from R80 to R82 for every constructor -/

theorem test_decode_nop : decode 0x00FFFFFFFFFFFFFFFF = .ok .nop := by decide
theorem test_decode_b32eClr : decode 0x100000000000000000 = .ok .b32eClr := by decide
theorem test_decode_b32eByte : decode 0x11FFFFFFFFFFFFFF01 = .ok (.b32eByte 0x01) := by decide
theorem test_decode_b32eFin : decode 0x12000000000000FFFF = .ok .b32eFin := by decide
theorem test_decode_b32dClr : decode 0x200000000000000000 = .ok .b32dClr := by decide
theorem test_decode_b32dChar : decode 0x21AAAAAAAA80000141 = .ok (.b32dChar 0x80000141) := by decide
theorem test_decode_b32dFin : decode 0x220000000000000000 = .ok .b32dFin := by decide
theorem test_decode_be64 : decode 0x300102030405060708 = .ok (.be64 0x0102030405060708) := by decide
theorem test_decode_htDig : decode 0x40FFFFFFFFFFFF135A = .ok (.htDig 19 0x5A) := by decide
theorem test_decode_htTrunc : decode 0x410000000000000000 = .ok .htTrunc := by decide
theorem test_decode_htCode : decode 0x420000000000000000 = .ok .htCode := by decide
theorem test_decode_htHotp : decode 0x430000000000000000 = .ok .htHotp := by decide
theorem test_decode_unassigned : decode 0x130000000000000000 = .error (.unassignedOpcode 0x13) := by decide
/-- P1 step 1 and V-HT-15, by the notation of R86. -/
theorem test_encode_words : encode (.b32eByte 0x01) = 0x110000000000000001 ∧
    encode (.htDig 19 0x5A) = 0x40000000000000135A ∧ encode (.be64 123456) = 0x30000000000001E240 := by decide
/-- No two rows of R82 share an opcode. -/
theorem test_opcodeMap_no_overlap : (opcodeMap.map (·.op)).Nodup := by decide
/-- The table numbering: OP in bits 7..0, DATA from bit 8. -/
theorem test_decodeTableWord : decodeTableWord 8 0x11 = some (.b32eByte 0) ∧ decodeTableWord 8 0x43 = some .htHotp ∧
    decodeTableWord 8 0x44 = none ∧ decodeTableWord 24 0x135A40 = some (.htDig 0x13 0x5A) := by decide

/-! ## The step -/

theorem test_step_runs_placed_command :
    holds (step (State.reset.withFetchWord 8 0x40)) (fun t => decide (t.pending = []) &&
      decide (t.seen = [.response ⟨.ok, []⟩])) = true := by decide
/-- V-SYS-5. -/
theorem test_step_unassigned :
    answers (step (present 0xFF0000000000000000 State.reset)) .illegalCommand [] = true := by decide
/-- R221, R222: a host procedure is refused before the first reset; a placed command runs on a block that was reset. -/
theorem test_never_reset :
    issue .nop { State.reset with rstSeen := false } = .refused .beforeFirstReset ∧
    holds (step (({ withEnc 3 4 with rstSeen := false } : State).withFetchWord 8 0x12)) (fun t =>
      decide (t.rspCnt = 0)) = true := ⟨rfl, by decide⟩
theorem test_step_reset_clears :
    holds (step { withEnc 3 4 with pending := [.assertRst] }) (fun t => decide (t.encN = 0)) = true := by decide

/-! ## Commands -/

/-- V-SYS-8: the old response is gone. -/
theorem test_nop_clears_response :
    holds (exec .nop (respond .ok (intToBytes 1) State.reset)) (fun t =>
      decide (t.rspDat = #v[0, 0, 0, 0, 0, 0, 0, 0])) = true := by decide
/-- V-SYS-6: an illegal command keeps the residual. -/
theorem test_unassigned_keeps_residual :
    holds (acceptCommand 0x13FFFFFFFFFFFFFFFF (withEnc 3 4)) (fun t =>
      decide (t.encAcc = 3) && decide (t.encN = 4)) = true := by decide
/-- V-ENC-31. -/
theorem test_b32eClr : holds (exec .b32eClr (withEnc 15 4)) (fun t =>
    decide (t.encN = 0) && decide (t.rspCnt = 0)) = true := by decide
/-- V-SYS-3. -/
theorem test_b32eByte_two : answers (exec (.b32eByte 0x01) (withEnc 3 4)) .ok [0x47, 0x41] = true ∧
    holds (exec (.b32eByte 0x01) (withEnc 3 4)) (fun t => decide (t.encAcc = 1) && decide (t.encN = 2)) = true := by
  decide
/-- V-ENC-23. -/
theorem test_b32eByte_one : answers (exec (.b32eByte 0xFF) (withEnc 1 1)) .ok [0x37] = true ∧
    holds (exec (.b32eByte 0xFF) (withEnc 1 1)) (fun t => decide (t.encAcc = 15) && decide (t.encN = 4)) = true := by
  decide
/-- V-SYS-4 and V-ENC-26. -/
theorem test_b32eFin : answers (exec .b32eFin (withEnc 1 2)) .ok [0x49] = true ∧
    answers (exec .b32eFin (withEnc 0 0)) .ok [] = true := by decide
/-- V-DEC-41. -/
theorem test_b32dClr : holds (exec .b32dClr (setErr State.reset)) (fun t =>
    decide (t.decErr = false) && decide (t.rspSt = .ok)) = true := by decide
/-- V-DEC-44. -/
theorem test_b32dChar_byte : answers (exec (.b32dChar 0x37) (withDec 3 7)) .ok [0x07] = true ∧
    holds (exec (.b32dChar 0x37) (withDec 3 7)) (fun t => decide (t.decAcc = 15) && decide (t.decN = 4)) = true := by
  decide
/-- V-DEC-32, V-DEC-37 and V-DEC-38. -/
theorem test_b32dChar_order : answers (exec (.b32dChar 0x141) State.reset) .invalidEncoding [] = true ∧
    answers (exec (.b32dChar 0x30) (setStop State.reset)) .ok [] = true ∧
    holds (exec (.b32dChar 0x3D) (setErr State.reset)) (fun t =>
      decide (t.rspSt = .invalidEncoding) && decide (t.decStop = false)) = true := by decide
/-- V-DEC-40 and V-DEC-42. -/
theorem test_b32dFin : answers (exec .b32dFin (setErr (withDec 0 2))) .invalidEncoding [] = true ∧
    holds (exec .b32dFin (setStop (withDec 0 1))) (fun t =>
      decide (t.rspSt = .ok) && decide (t.decN = 0) && decide (t.decStop = false)) = true := by decide
/-- V-BE64-5 and V-BE64-7. -/
theorem test_be64 : answers (exec (.be64 123456) State.reset) .ok [0, 0, 0, 0, 0, 1, 226, 64] = true ∧
    answers (exec (.be64 0x0102030405060708) State.reset) .ok [1, 2, 3, 4, 5, 6, 7, 8] = true := by decide
/-- V-HT-15 and V-HT-16. -/
theorem test_htDig : holds (exec (.htDig 19 0x5A) State.reset) (fun t => decide (t.dig[19] = 0x5A)) = true ∧
    answers (exec (.htDig 20 0x00) State.reset) .illegalOperand [] = true := by decide
/-- V-HT-4. -/
theorem test_htTrunc : answers (exec .htTrunc (withDig digestHt4)) .ok [0x50, 0xEF, 0x7F, 0x19] = true ∧
    holds (exec .htTrunc (withDig digestHt4)) (fun t => decide (t.trOff = 10)) = true := by decide
/-- V-HT-21 and V-HT-22. -/
theorem test_htCode :
    answers (exec .htCode (setTr 0 77 State.reset)) .ok [0x30, 0x30, 0x30, 0x30, 0x37, 0x37] = true ∧
    answers (exec .htCode (setTr 0 2147483647 State.reset)) .ok [0x34, 0x38, 0x33, 0x36, 0x34, 0x37] = true := by
  decide
/-- V-HT-13 (S7, P3 step 21). -/
theorem test_htHotp :
    answers (exec .htHotp (withDig digestHt13)) .ok [0x37, 0x38, 0x38, 0x35, 0x35, 0x33] = true ∧
    holds (exec .htHotp (withDig digestHt13)) (fun t =>
      decide (t.trOff = 6) && decide (t.trBin = 1879788553) && decide (t.codeVal = 788553)) = true := by decide

/-! ## The whole functions and the observation port -/

/-- S3. -/
theorem test_encodeBase32 : encodeBase32 [1, 2, 3] = [0x41, 0x45, 0x42, 0x41, 0x47] := by decide
/-- V-DEC-13 and V-DEC-29. -/
theorem test_decodeBase32 : decodeBase32 [0x41, 0x45, 0x42, 0x41, 0x47, 0x3D, 0x41, 0x3D] = .ok [1, 2, 3] ∧
    decodeBase32 [0x41, 0x45, 0x42, 0x30] = .error .invalidEncoding := by decide
/-- V-SYS-9 and V-SYS-10. -/
theorem test_observe_reset : observe State.reset 0x07 = 0x0000303030303030 ∧ observe State.reset 0x0B = 0 := by decide
/-- The reads at the end of P3. -/
theorem test_observe_hotp :
    holds (exec .htHotp (withDig digestHt13)) (fun t => decide (observe t 0x00 = 0x60) &&
      decide (observe t 0x05 = 0x700B4C09) && decide (observe t 0x07 = 0x0000373838353533) &&
      decide (observe t 0x08 = 0x9B0290AC0C87700B) && decide (observe t 0x0A = 0x00000000511B1BA6)) = true := by decide
/-- V-HOST-4, V-HOST-6 and V-HOST-7. -/
theorem test_counterOfMs : counterOfMs (-1) = -1 ∧ counterOfMs (-30001) = -2 ∧
    counterOfMs 1666111090825 = 55537036 := by
  refine ⟨?_, ?_, ?_⟩ <;>
    refine (Int.floor_eq_iff (R := Rat) (a := toUnixTime _ / (Config.timeStep : Rat))).mpr ⟨?_, ?_⟩ <;>
    norm_num [toUnixTime, Config.timeStep]
theorem test_assembleLine : assembleLine "HT.DIG 19, 0x5A ; offset byte".toList = .ok [.htDig 19 0x5A] ∧
    assembleLine "BE64 -1".toList = .ok [.be64 0xFFFFFFFFFFFFFFFF] ∧
    assembleLine "B32D.CHAR ';'".toList = .ok [.b32dChar 0x3B] := by decide
/-- A number out of range, an operand too many, and a line that runs on (log entry 7). -/
theorem test_assembleLine_refuses : assembleLine "B32E.BYTE 256".toList = .error .outOfRange ∧
    assembleLine "B32E.BYTES 1,".toList = .error .badLine ∧
    assembleLine "NOP 1".toList = .error .badLine := by decide
/-- R87. -/
theorem test_assemble_pseudo : assembleLine "B32E.BYTES 1, 2".toList =
      .ok [.b32eClr, .b32eByte 1, .b32eByte 2, .b32eFin] ∧
    assembleLine "B32D.STR \"A\"".toList = .ok [.b32dClr, .b32dChar 0x41, .b32dFin] := by decide
/-- R86's example of the notation. -/
theorem test_wordText : wordText (encode (.b32eByte 0x01)) = "11:0000000000000001".toList := by decide

/-! ## Witnesses: states and operands that meet the hypotheses of the statements -/

theorem witness_EncodeOfDecode : ∃ w i, decode w = .ok i :=
  ⟨0x40FFFFFFFFFFFF135A, .htDig 19 0x5A, by decide⟩
theorem witness_IgnoredBitsChangeNothing : ∃ op d d', d ≠ d' ∧ d &&& readMask op = d' &&& readMask op :=
  ⟨0x11, 0x01, 0xFFFFFFFFFFFFFF01, by decide, by decide⟩
theorem witness_CommandStepIsTotal : (0x44 : BitVec 8) ∉ assignedOpcodes := by decide
theorem witness_StepRunsDecodedInstruction :
    (∃ (s : State) (w : CommandWord) (i : Instr) (t : State), s.rstSeen = true ∧
      s.pending = [HostAction.command w] ∧ decode w = .ok i ∧ exec i { s with pending := [] } = .next t) ∧
    ∃ (s : State) (w : CommandWord) (e : DecodeReject), s.rstSeen = true ∧
      s.pending = [HostAction.command w] ∧ decode w = .error e :=
  ⟨⟨present 0x110000000000000001 State.reset, 0x110000000000000001, .b32eByte 1, _, rfl, rfl, by decide, rfl⟩,
   ⟨present 0xFF0000000000000000 State.reset, 0xFF0000000000000000, .unassignedOpcode 0xFF, rfl, rfl, by decide⟩⟩
theorem witness_StepAnswersAfterReset : State.reset.rstSeen = true ∧ StateInv State.reset := by decide
theorem witness_HostActionsRunToTheirEnd :
    ((present 0x110000000000000001 State.reset).rstSeen = true ∧
      (present 0x110000000000000001 State.reset).pending = [.command 0x110000000000000001]) ∧
    ([HostAction.assertRst].head? = some .assertRst ∧
      ({ State.reset with rstSeen := false, pending := [.assertRst] } : State).pending = [.assertRst]) ∧
    StateInv (present 0x110000000000000001 State.reset) := by decide
theorem witness_IdleStepKeepsState : State.reset.pending = [] := by decide
theorem witness_BeforeFirstResetRefused :
    (({ State.reset with rstSeen := false, pending := [.command 0] } : State).rstSeen = false ∧
      ({ State.reset with rstSeen := false, pending := [.command 0] } : State).pending = [.command 0]) ∧
    ({ State.reset with rstSeen := false, pending := [.readPort 0] } : State).pending = [.readPort 0] ∧
    ({ State.reset with rstSeen := false, pending := [.assertRst] } : State).pending = [.assertRst] := by decide
theorem witness_ResetSetsEveryRegister : (∃ t, t = State.reset) ∧
    ∃ t s rest, s.pending = HostAction.assertRst :: rest ∧ step s = .next t :=
  ⟨⟨_, rfl⟩, ⟨_, { withEnc 3 4 with pending := [.assertRst] }, [], rfl, rfl⟩⟩
theorem witness_ResetStepAnswers :
    ({ withEnc 3 4 with pending := [.assertRst] } : State).pending = [.assertRst] := by decide
theorem witness_StepKeepsInvariants : ∃ s t, StateInv s ∧ step s = .next t :=
  ⟨present 0x1100000000000000FF State.reset, _, by decide, rfl⟩
theorem witness_UnassignedOpcodeAnswersIllegal : (0x00 : BitVec 8) ∈ assignedOpcodes ∧
    (0x01 : BitVec 8) ∉ assignedOpcodes ∧ (0xFF : BitVec 8) ∉ assignedOpcodes := by decide
theorem witness_CounterBytesBijection : (∃ n m, intToBytes n = intToBytes m) ∧
    (intToBytes 0).length = 8 ∧ intToBytes (BitVec.ofNat 64 (2 ^ 63)) = [0x80, 0, 0, 0, 0, 0, 0, 0] ∧
    (∃ t, exec (.be64 1) State.reset = .next t) ∧ (0xFFFFFFFF : Data).toNat < 2 ^ 32 ∧
    (0xFFFFFFFFFFFFFF : Data).toNat < 2 ^ 56 :=
  ⟨⟨0, 0, rfl⟩, by decide, by decide, ⟨_, rfl⟩, by decide, by decide⟩
theorem witness_CounterWordIsModulo : (-2 ^ 63 : Int) ≤ -2 ^ 63 ∧ (-2 ^ 63 : Int) < 0 ∧ (-2 ^ 63 : Int) ≤ -1 := by
  decide
theorem witness_AlphabetInOrder : classify 0x41 = .alphabet 0 ∧ classify 0x37 = .alphabet 31 := by decide
theorem witness_EncoderByte : (withEnc 1 1).encN.toNat ≤ 1 ∧ 2 ≤ (withEnc 3 2).encN.toNat ∧
    (withEnc 3 2).encN.toNat ≤ 4 ∧ 2 ≤ (withEnc 15 4).encN.toNat ∧ (withEnc 15 4).encN.toNat ≤ 4 := by decide
theorem witness_EncoderFinish : ((withEnc 0 0).encN.toNat ≤ 4 ∧ (withEnc 0 0).encN = 0) ∧
    (withEnc 15 4).encN.toNat ≤ 4 ∧ (withEnc 15 4).encN ≠ 0 := by decide
theorem witness_EncoderNeverFails : Instr.b32eClr.unit = .encoder ∧ (Instr.b32eByte 0xFF).unit = .encoder ∧
    Instr.b32eFin.unit = .encoder := by decide
theorem witness_EncoderStreamLaw : State.reset.rstSeen = true ∧ State.reset.encN = 0 ∧
    ([Instr.b32eByte 1, .nop, .b32eByte 2, .htHotp, .b32eFin, .be64 7].filter fun i => i.unit == .encoder) =
      [1, 2].map Instr.b32eByte ++ [.b32eFin] := by decide
theorem witness_EncoderLength : 4 < 5 ∧ ([0, 0, 0, 0, 0, 0, 0, 0, 0] : List Byte).length = 5 * 1 + 4 := by decide
theorem witness_DecoderCharacter :
    (setErr State.reset).decErr = true ∧
    ((setStop State.reset).decErr = false ∧ (setStop State.reset).decStop = true) ∧
    (State.reset.decErr = false ∧ State.reset.decStop = false) ∧
    classify 0x3D = .pad ∧ classify 0x5A = .alphabet 25 ∧ classify 0x30 = .invalid ∧
    (withDec 3 2).decN.toNat ≤ 2 ∧ 3 ≤ (withDec 7 3).decN.toNat := by decide
theorem witness_DecoderFinish : (setErr State.reset).decErr = true ∧ State.reset.decErr = false := by decide
theorem witness_DecoderStreamLaw :
    State.reset.rstSeen = true ∧
    (State.reset.decAcc = 0 ∧ State.reset.decN = 0 ∧ State.reset.decStop = false ∧ State.reset.decErr = false) ∧
    (([Instr.b32dChar 0x41, .nop, .b32dChar 0x45, .b32eFin, .b32dFin].filter fun i => i.unit == .decoder) =
      [0x41, 0x45].map Instr.b32dChar ++ [.b32dFin]) ∧ decodeBase32 [0x41, 0x45] = .ok [0x01] ∧
    (([Instr.b32dChar 0x41, .b32dChar 0x30, .b32dFin].filter fun i => i.unit == .decoder) =
      [0x41, 0x30].map Instr.b32dChar ++ [.b32dFin]) ∧ decodeBase32 [0x41, 0x30] = .error .invalidEncoding ∧
    ([0x41, 0x30] : List CharCode)[1]? = some 0x30 ∧ classify 0x30 = .invalid ∧ 1 ≤ 2 ∧
    2 ≤ ([0x41, 0x30] : List CharCode).length ∧
    (∀ m < 1, ∀ b, ([0x41, 0x30] : List CharCode)[m]? = some b → classify b ≠ .pad) := by
  refine ⟨by decide, by decide, by decide, by decide, by decide, by decide, by decide, by decide, by decide,
    by decide, ?_⟩
  intro m hm b hb
  obtain rfl : m = 0 := by omega
  obtain rfl : (0x41 : CharCode) = b := Option.some.inj hb
  decide
theorem witness_DecoderLength : decodeBase32 [0x41, 0x41, 0x41, 0x3D, 0x30] = .ok [0x00] := by decide
theorem witness_StrictAlphabet : (0x61 ≤ (0x7A : CharCode).toNat ∧ (0x7A : CharCode).toNat ≤ 0x7A) ∧
    (0x38 : CharCode).toNat ∈ [0x30, 0x31, 0x38, 0x39] ∧
    (0x09 ≤ (0x0D : CharCode).toNat ∧ (0x0D : CharCode).toNat ≤ 0x0D) ∧
    (0x2000 ≤ (0x200A : CharCode).toNat ∧ (0x200A : CharCode).toNat ≤ 0x200A) ∧
    ∀ b ∈ ([0x41] : List CharCode), classify b ≠ .pad :=
  ⟨by decide, by decide, by decide, by simp, fun b hb => by obtain rfl := List.mem_singleton.mp hb; decide⟩
theorem witness_DecoderErrorIsSticky :
    (opOf 0x210000000000000030 = 0x21 ∧
      ∃ t, acceptCommand 0x210000000000000030 State.reset = .next t ∧ t.rspSt = .invalidEncoding) ∧
    ((setErr State.reset).decErr = true ∧ opOf 0x21000000000000003D ≠ 0x20 ∧ opOf 0x21000000000000003D ≠ 0x22 ∧
      opOf 0x21000000000000003D = 0x21) ∧
    opOf 0x200000000000000000 = 0x20 ∧ opOf 0x220000000000000000 = 0x22 ∧
    ({ setErr State.reset with pending := [.assertRst] } : State).pending = [.assertRst] :=
  ⟨⟨by decide, _, rfl, rfl⟩, by decide, by decide, by decide, by decide⟩
theorem witness_StoppedStreamIgnoresCharacters : (setStop State.reset).rstSeen = true ∧
    (setStop State.reset).decStop = true ∧
    (setStop State.reset).decErr = false := by decide
theorem witness_DigestByteWrite : (0x135A : Data).toNat / 256 % 256 < 20 ∧ 20 ≤ (0x1400 : Data).toNat / 256 % 256 := by
  decide
theorem witness_TruncationReadsFourBytes : ∃ h h' : Digest, h ≠ h' ∧ (h[19]).toNat % 16 = (h'[19]).toNat % 16 ∧
    ∀ k : Fin 20, (dtOffset h).toNat ≤ k.val → k.val ≤ (dtOffset h).toNat + 3 → h[k] = h'[k] :=
  ⟨digestHt4, digestHt4.set 0 0, by decide, by decide, by decide⟩
theorem witness_CodeIsSixDigits : (∃ t, exec .htCode (setTr 0 77 State.reset) = .next t) ∧
    ∃ t, exec .htHotp (withDig digestHt4) = .next t := ⟨⟨_, rfl⟩, ⟨_, rfl⟩⟩
theorem witness_StatusHasExactCauses :
    (∃ t, acceptCommand (commandWord 0x21 0x30) State.reset = .next t ∧ t.rspSt = .invalidEncoding) ∧
    (∃ t, acceptCommand (commandWord 0x22 0) (setErr State.reset) = .next t ∧ t.rspSt = .invalidEncoding) ∧
    (∃ t, acceptCommand (commandWord 0x44 0) State.reset = .next t ∧ t.rspSt = .illegalCommand) ∧
    ∃ t, acceptCommand (commandWord 0x40 0x1400) State.reset = .next t ∧ t.rspSt = .illegalOperand :=
  ⟨⟨_, rfl, rfl⟩, ⟨_, rfl, rfl⟩, ⟨_, rfl, rfl⟩, ⟨_, rfl, rfl⟩⟩
theorem witness_ErrorsArePrecise :
    (∃ t, acceptCommand 0x210000000000000030 State.reset = .next t ∧ t.rspSt ≠ .ok) ∧
    opOf 0x210000000000000030 ≠ 0x22 ∧
    ∃ t, acceptCommand 0x220000000000000000 (setErr State.reset) = .next t ∧ t.rspSt ≠ .ok :=
  ⟨⟨_, rfl, by decide⟩, by decide, ⟨_, rfl, by decide⟩⟩
theorem witness_OnlyListedCommandsWrite : (∃ t, acceptCommand 0x000000000000000000 State.reset = .next t) ∧
    opOf 0x000000000000000000 ∉ ([0x10, 0x11, 0x12] : List (BitVec 8)) ∧
    opOf 0x000000000000000000 ∉ ([0x20, 0x21, 0x22] : List (BitVec 8)) ∧ opOf 0x000000000000000000 ≠ 0x40 ∧
    opOf 0x000000000000000000 ∉ ([0x41, 0x43] : List (BitVec 8)) ∧
    opOf 0x000000000000000000 ∉ ([0x42, 0x43] : List (BitVec 8)) :=
  ⟨⟨_, rfl⟩, by decide, by decide, by decide, by decide, by decide⟩
theorem witness_UnitsAreIndependent :
    UnitAgrees (Instr.b32eByte 1).unit (withEnc 3 4) (setErr (respond .illegalCommand [] (withEnc 3 4))) ∧
    withEnc 3 4 ≠ setErr (respond .illegalCommand [] (withEnc 3 4)) ∧ BlockUnit.hotp ≠ (Instr.b32eByte 1).unit :=
  ⟨⟨rfl, rfl⟩, by decide, by decide⟩
theorem witness_ObservationPortShowsState : 0x0A < (0x0B : BitVec 8).toNat ∧
    ({ State.reset with pending := [.readPort 7] } : State).rstSeen = true ∧
    ({ State.reset with pending := [.readPort 7] } : State).pending = [.readPort 7] := by decide
theorem witness_LoadedDigestGivesItsCode : State.reset.rstSeen = true := by decide
theorem witness_PseudoCommandsDoTheirFunction : (setErr (withEnc 3 4)).rstSeen = true := by decide
theorem witness_TotpOfSecret : State.reset.rstSeen = true ∧ decodeBase32 [0x30] = .error .invalidEncoding ∧
    decodeBase32 [0x37, 0x34] = .ok [0xFF] := by decide
theorem witness_VerifyChecksTheWindow : State.reset.rstSeen = true ∧ decodeBase32 [0x30] = .error .invalidEncoding ∧
    (Secret.bytes [0xFF] = .bytes [0xFF]) ∧
    ∃ cs, Secret.base32 [0x37, 0x34] = .base32 cs ∧ decodeBase32 cs = .ok [0xFF] :=
  ⟨by decide, by decide, rfl, ⟨[0x37, 0x34], rfl, by decide⟩⟩

end Sys2Proof.Tests
end

/-! The alphabet and its partial inverse (spec/00_scope.md R10). -/

section
namespace Sys2Proof.Proofs

open Sys2Proof.Machine

/-- Widening an output byte to the decoder's character code keeps its value (R11, R83). -/
@[simp] theorem charOfByte_toNat (b : Byte) : (charOfByte b).toNat = b.toNat :=
  BitVec.toNat_setWidth_of_le (by decide)

/-- Each of the decoder's two alphabet ranges is sent back by the branch of `ALPHA` it came from (R10, R140). -/
theorem charOfByte_alpha_of_classify {c : CharCode} {v : BitVec 5} (h : classify c = .alphabet v) :
    charOfByte (alpha v) = c := by
  apply BitVec.eq_of_toNat_eq
  rw [charOfByte_toNat, alpha_toNat]
  obtain ⟨hlo, hhi, hv⟩ | ⟨hlo, hhi, hv⟩ := (classify_eq_alphabet_iff c v).mp h
  · rw [if_pos (by omega)]; omega
  · rw [if_neg (by omega)]; omega

/-- Settles O22: the table is the 32 closed values of `alpha`; `classify` undoes `alpha` by `classify_alpha`, and
`alpha` undoes `classify` by its two ranges. -/
theorem alphabetInOrder : Obligations.AlphabetInOrder :=
  ⟨by decide, classify_alpha, fun _ _ => charOfByte_alpha_of_classify⟩

end Sys2Proof.Proofs
end

/-! The invariants of the state (spec/10_state.md R41) and the written-by column (R32). What a command may write is
said once, by `UnitWrite`; the invariants and the column are read off its cases. -/

section
namespace Sys2Proof

/-- The decoder dispatches on the opcode: the instruction it answers has the word's opcode (R80, R82). -/
theorem opcode_of_decodeFields {op : BitVec 8} {d : Data} {i : Instr} (h : decodeFields op d = .ok i) :
    i.opcode = op := by
  by_cases ha : op ∈ Machine.assignedOpcodes
  · simp only [Machine.assignedOpcodes, List.mem_cons, List.not_mem_nil, or_false] at ha
    rcases ha with rfl | rfl | rfl | rfl | rfl | rfl | rfl | rfl | rfl | rfl | rfl | rfl <;>
      exact Except.ok.inj h ▸ rfl
  · rw [decodeFields_of_not_assigned op d ha] at h
    cases h

end Sys2Proof

namespace Sys2Proof.Proofs

open Sys2Proof.Machine

/-- What `HT.CODE` and `HT.HOTP` write beside the response: the code of `TR_BIN` (R174). -/
def writeCode (s : State) : State :=
  setCode (BitVec.ofNat 20 (codeValue s.trBin)) (codeChars (codeValue s.trBin)) s

/-- The state `u` is `s` with what a command word of opcode `op` may write before it responds (R32's written-by
column, with the values written). -/
inductive UnitWrite (s : State) : (op : BitVec 8) → (u : State) → Prop where
  | nothing (op : BitVec 8) : UnitWrite s op s
  | encClr : UnitWrite s 0x10 (setEnc 0 0 s)
  | encByte (b : Byte) :
    UnitWrite s 0x11 (setEnc (encFeed s.encAcc s.encN b).2.1 (encFeed s.encAcc s.encN b).2.2 s)
  | encFin : UnitWrite s 0x12 (setEnc 0 0 s)
  | decClr : UnitWrite s 0x20 (clearDec s)
  | decChar (v : BitVec 5) :
    UnitWrite s 0x21 (setDec (decFeed s.decAcc s.decN v).2.1 (decFeed s.decAcc s.decN v).2.2 s)
  | decPad (h : s.decErr = false) : UnitWrite s 0x21 (setStop s)
  | decInvalid (h : s.decStop = false) : UnitWrite s 0x21 (setErr s)
  | decFin : UnitWrite s 0x22 (clearDec s)
  | digByte (i : Nat) (h : i < 20) (b : Byte) : UnitWrite s 0x40 (setDig i h b s)
  | trunc : UnitWrite s 0x41 (truncate s)
  | code : UnitWrite s 0x42 (writeCode s)
  | hotp : UnitWrite s 0x43 (writeCode (truncate s))

/-- The one command whose write depends on the state: `B32D.CHAR` sets a flag only while the other is clear (R143). -/
theorem execB32dChar_unitWrite (c : CharCode) (s : State) :
    ∃ st out u, execB32dChar c s = .next (respond st out u) ∧ UnitWrite s 0x21 u := by
  unfold execB32dChar
  split
  case isTrue => exact ⟨_, _, _, rfl, .nothing _⟩
  case isFalse herr =>
    split
    case isTrue => exact ⟨_, _, _, rfl, .nothing _⟩
    case isFalse hstop =>
      split
      · exact ⟨_, _, _, rfl, .decPad (Bool.eq_false_iff.mpr herr)⟩
      · exact ⟨_, _, _, rfl, .decChar _⟩
      · exact ⟨_, _, _, rfl, .decInvalid (Bool.eq_false_iff.mpr hstop)⟩

/-- Every instruction responds over a state that its opcode may write. -/
theorem exec_unitWrite (i : Instr) (s : State) :
    ∃ st out u, exec i s = .next (respond st out u) ∧ UnitWrite s i.opcode u := by
  cases i with
  | nop => exact ⟨_, _, _, rfl, .nothing _⟩
  | b32eClr => exact ⟨_, _, _, rfl, .encClr⟩
  | b32eByte b => exact ⟨_, _, _, rfl, .encByte b⟩
  | b32eFin => exact ⟨_, _, _, rfl, .encFin⟩
  | b32dClr => exact ⟨_, _, _, rfl, .decClr⟩
  | b32dChar c => exact execB32dChar_unitWrite c s
  | b32dFin => exact ⟨_, _, _, rfl, .decFin⟩
  | be64 n => exact ⟨_, _, _, rfl, .nothing _⟩
  | htDig i b =>
    by_cases h : i.toNat < 20
    · exact ⟨_, _, _, dif_pos h, .digByte _ h b⟩
    · exact ⟨_, _, _, dif_neg h, .nothing _⟩
  | htTrunc => exact ⟨_, _, _, rfl, .trunc⟩
  | htCode => exact ⟨_, _, _, rfl, .code⟩
  | htHotp => exact ⟨_, _, _, rfl, .hotp⟩

/-- So does every command word; one that is no instruction writes nothing (R103). -/
theorem acceptCommand_unitWrite (w : CommandWord) (s : State) :
    ∃ st out u, acceptCommand w s = .next (respond st out u) ∧ UnitWrite s (opOf w) u := by
  unfold acceptCommand
  split
  case _ i hi => exact opcode_of_decodeFields hi ▸ exec_unitWrite i s
  case _ => exact ⟨_, _, _, rfl, .nothing _⟩

/-! ### The written-by column -/

/-- A write stays in the unit its opcode names (R32, R104). -/
theorem UnitWrite.frame {s u : State} {op : BitVec 8} (h : UnitWrite s op u) :
    (op ∉ [0x10, 0x11, 0x12] → EncSame s u) ∧ (op ∉ [0x20, 0x21, 0x22] → DecSame s u) ∧
    (op ≠ 0x40 → DigSame s u) ∧ (op ∉ [0x41, 0x43] → TrSame s u) ∧
    (op ∉ [0x42, 0x43] → CodeSame s u) ∧ HostSame s u := by
  cases h <;> simp [truncate, writeCode, EncSame, DecSame, DigSame, TrSame, CodeSame, HostSame]

/-- Settles O51: a response writes no register of a unit (`respond_frame`), so what a command word changes there is its
`UnitWrite`. -/
theorem onlyListedCommandsWrite : Obligations.OnlyListedCommandsWrite := by
  intro s t w hst
  obtain ⟨st, out, u, hu, hw⟩ := acceptCommand_unitWrite w s
  obtain rfl : respond st out u = t := Host.Outcome.next.inj (hu.symm.trans hst)
  exact hw.frame

/-! ### The invariants -/

/-- Settles O15: every register holds its reset value, and the digits of 0 are six characters `0`. -/
theorem resetHasInvariants : Obligations.ResetHasInvariants := by
  unfold Obligations.ResetHasInvariants
  decide

/-- A residual of `k` bits fits the count stored beside it, since a register only drops bits (R33, R34). -/
theorem residual_lt (width x : Nat) {k : Nat} (hk : k < 8) :
    (BitVec.ofNat width (x % 2 ^ k)).toNat < 2 ^ (BitVec.ofNat 3 k).toNat := by
  rw [BitVec.toNat_ofNat, BitVec.toNat_ofNat, Nat.mod_eq_of_lt hk]
  exact (Nat.mod_le _ _).trans_lt (Nat.mod_lt _ (Nat.two_pow_pos k))

/-- The encoder keeps at most 4 bits: a byte adds 3 to a count of 0 or 1 and takes 2 from a count of 2 to 4 (R132). -/
theorem encInv_encFeed {s : State} (hn : s.encN.toNat ≤ 4) (b : Byte) :
    EncInv (setEnc (encFeed s.encAcc s.encN b).2.1 (encFeed s.encAcc s.encN b).2.2 s) := by
  by_cases h1 : s.encN.toNat ≤ 1
  · simp only [EncInv, setEnc_encAcc, setEnc_encN, encFeed_one _ _ b h1]
    exact ⟨residual_lt 4 _ (by omega), by rw [BitVec.toNat_ofNat]; omega⟩
  · simp only [EncInv, setEnc_encAcc, setEnc_encN, encFeed_two _ _ b (by omega) hn]
    exact ⟨residual_lt 4 _ (by omega), by rw [BitVec.toNat_ofNat]; omega⟩

/-- The decoder keeps as many bits as it counts: a character adds 5 to a count of at most 2 and takes 3 from a larger
one (R143). -/
theorem decInv_decFeed (s : State) (v : BitVec 5) :
    DecInv (setDec (decFeed s.decAcc s.decN v).2.1 (decFeed s.decAcc s.decN v).2.2 s) := by
  refine ⟨?_, Nat.lt_succ_iff.mp (BitVec.isLt _)⟩
  by_cases h : s.decN.toNat ≤ 2
  · simp only [setDec_decAcc, setDec_decN, decFeed_none _ _ v h]
    exact residual_lt 7 _ (by omega)
  · simp only [setDec_decAcc, setDec_decN, decFeed_one _ _ v (Nat.lt_of_not_le h)]
    exact residual_lt 7 _ (by omega)

/-- The extracted code is below 1000000, so `CODE_VAL` holds it whole and its digits agree (R171, R174). -/
theorem codeInv_writeCode (s : State) : CodeInv (writeCode s) := by
  have hlt : codeValue s.trBin < 1000000 := codeValue_lt s.trBin
  have hval : (writeCode s).codeVal.toNat = codeValue s.trBin :=
    Nat.mod_eq_of_lt (hlt.trans (by decide))
  rw [CodeInv, hval]
  refine ⟨by omega, fun k => ?_⟩
  have hchr : (writeCode s).codeChr[k] = codeDigit (codeValue s.trBin) k := codeChars_get _ k
  rw [hchr, codeDigit_toNat]

/-- R41 (6) is what the widths of the truncation registers say. -/
theorem trInv (s : State) : TrInv s :=
  ⟨Nat.lt_succ_iff.mp s.trOff.isLt, s.trBin.isLt⟩

/-- A response of at most eight bytes has zeros behind its bytes (R101). -/
theorem rspInv_respond (st : Status) {out : List Byte} (h : out.length ≤ 8) (s : State) :
    RspInv (respond st out s) := by
  obtain ⟨-, hcnt, hdat⟩ := answers_respond st out s (decide_eq_true h)
  rw [RspInv, hcnt]
  refine ⟨h, fun k hk => ?_⟩
  rw [hdat k, List.getD_eq_default _ _ hk]

/-- A command word leaves well-formed response registers, whatever they held. -/
theorem rspInv_of_acceptCommand {w : CommandWord} {s t : State} (h : acceptCommand w s = .next t) : RspInv t := by
  obtain ⟨st, out, u, hu, hlen, -, -⟩ := acceptCommand_responds w s
  obtain rfl : respond st out u = t := Host.Outcome.next.inj (hu.symm.trans h)
  exact rspInv_respond st hlen u

/-- What a command may write keeps the invariants: each write is checked against the invariant of its own unit, and
leaves the registers of the others as they were. -/
theorem UnitWrite.stateInv {s u : State} {op : BitVec 8} (h : UnitWrite s op u) (hs : StateInv s) : StateInv u := by
  obtain ⟨henc, hdec, hflag, hcode, hrsp, -⟩ := hs
  have hclear : DecInv (clearDec s) ∧ FlagInv (clearDec s) := by simp [DecInv]
  have henc0 : EncInv (setEnc 0 0 s) := by simp [EncInv]
  cases h with
  | nothing | digByte | trunc => exact ⟨henc, hdec, hflag, hcode, hrsp, trInv _⟩
  | encClr | encFin => exact ⟨henc0, hdec, hflag, hcode, hrsp, trInv _⟩
  | encByte b => exact ⟨encInv_encFeed henc.2 b, hdec, hflag, hcode, hrsp, trInv _⟩
  | decClr | decFin => exact ⟨henc, hclear.1, hclear.2, hcode, hrsp, trInv _⟩
  | decChar v => exact ⟨henc, decInv_decFeed s v, hflag, hcode, hrsp, trInv _⟩
  | decPad herr => exact ⟨henc, hdec, by simp [herr], hcode, hrsp, trInv _⟩
  | decInvalid hstop => exact ⟨henc, hdec, by simp [hstop], hcode, hrsp, trInv _⟩
  | code => exact ⟨henc, hdec, hflag, codeInv_writeCode s, hrsp, trInv _⟩
  | hotp => exact ⟨henc, hdec, hflag, codeInv_writeCode (truncate s), hrsp, trInv _⟩

/-- A command word keeps the invariants of R41. -/
theorem stateInv_acceptCommand {w : CommandWord} {s t : State} (hs : StateInv s)
    (h : acceptCommand w s = .next t) : StateInv t := by
  have hrsp : RspInv t := rspInv_of_acceptCommand h
  obtain ⟨st, out, u, hu, hw⟩ := acceptCommand_unitWrite w s
  obtain rfl : respond st out u = t := Host.Outcome.next.inj (hu.symm.trans h)
  obtain ⟨henc, hdec, hflag, hcode, -, htr⟩ := hw.stateInv hs
  exact ⟨henc, hdec, hflag, hcode, hrsp, htr⟩

/-! ### One step of the machine -/

/-- With no action of the host left, a step changes nothing (R213). -/
theorem step_of_nil {s : State} (h : s.pending = []) : step s = .next s := by
  rw [step, takeNext, h]

/-- A step is the host's next action, taken from the list (R233). -/
theorem step_of_cons {s : State} {a : HostAction} {rest : List HostAction} (h : s.pending = a :: rest) :
    step s = hostAct a (setPending rest s) := by
  rw [step, takeNext, h]

/-- After the first reset a port read records the value and changes no register (R45). -/
theorem hostRead_of_rstSeen {s : State} (sel : BitVec 8) (h : s.rstSeen = true) :
    hostRead sel s = .next (record (.portValue sel (observe s sel)) s) := if_pos h

/-- The inversion lemma of a host action: what it answers is a record over the state as it was (a port read), the state
reset, or the state after a command word (R233). -/
theorem hostAct_cases {a : HostAction} {s t : State} (h : hostAct a s = .next t) :
    ∃ x u, t = record x u ∧ (u = s ∨ u = applyReset s ∨ ∃ w, acceptCommand w s = .next u) := by
  cases a with
  | command w =>
    by_cases hr : s.rstSeen = true
    · obtain ⟨st, out, u, hu, -⟩ := acceptCommand_responds w s
      simp only [hostAct, hostCommand, portCommand_of_rstSeen w s hr, hu, andThen] at h
      exact ⟨_, _, (Host.Outcome.next.inj h).symm, .inr (.inr ⟨w, hu⟩)⟩
    · simp only [hostAct, hostCommand, portCommand_of_never_reset w s (Bool.eq_false_iff.mpr hr), andThen] at h
      cases h
  | readPort sel =>
    by_cases hr : s.rstSeen = true
    · exact ⟨_, _, Host.Outcome.next.inj (h.symm.trans (hostRead_of_rstSeen sel hr)), .inl rfl⟩
    · cases h.symm.trans (if_neg hr)
  | assertRst => exact ⟨_, _, (Host.Outcome.next.inj h).symm, .inr (.inl rfl)⟩

/-- An action of the host keeps the invariants: they speak of no field that `record` writes. -/
theorem stateInv_hostAct {a : HostAction} {s t : State} (hs : StateInv s) (h : hostAct a s = .next t) :
    StateInv t := by
  obtain ⟨x, u, rfl, hu⟩ := hostAct_cases h
  suffices hinv : StateInv u from hinv
  obtain rfl | rfl | ⟨w, hw⟩ := hu
  · exact hs
  · exact resetHasInvariants
  · exact stateInv_acceptCommand hs hw

/-- Settles O16, by the host's next action: none leaves the state, and each of the three keeps the invariants. -/
theorem stepKeepsInvariants : Obligations.StepKeepsInvariants := by
  intro s t hs hst
  cases hp : s.pending with
  | nil =>
    obtain rfl : s = t := Host.Outcome.next.inj ((step_of_nil hp).symm.trans hst)
    exact hs
  | cons a rest =>
    have hrest : StateInv (setPending rest s) := hs
    exact stateInv_hostAct hrest ((step_of_cons hp).symm.trans hst)

end Sys2Proof.Proofs
end

/-! The observation port (spec/10_state.md R45): each view is an `or` of fields placed at their bits, so a slice of a
view is the field placed there and 0 elsewhere. -/

section
namespace Sys2Proof.Proofs

open Sys2Proof.Machine

/-! ### Slices of placed fields -/

/-- The bits of a view that holds one field from bit `lo` upward. -/
theorem getElem_placed {width : Nat} (lo : Nat) (v : BitVec width) (i : Nat) (hi : i < 64) :
    (placed lo v)[i] = (decide (lo ≤ i) && v.getLsbD (i - lo)) := by
  rw [← BitVec.getLsbD_eq_getElem, placed, BitVec.getLsbD_shiftLeft, BitVec.getLsbD_setWidth]
  have hsub : i - lo < 64 := by omega
  by_cases h : lo ≤ i <;> simp [h, hi, hsub]

/-- The slice a field was placed at is the field. -/
theorem extract_placed_same {width : Nat} (lo : Nat) (v : BitVec width) (h : lo + width ≤ 64) :
    (placed lo v).extractLsb' lo width = v := by
  apply BitVec.eq_of_getElem_eq
  intro i hi
  have hi64 : lo + i < 64 := by omega
  simp [getElem_placed, hi, hi64]

/-- A slice that ends below a field, or begins above it, reads 0 of it. -/
theorem extract_placed_apart {width : Nat} (lo : Nat) (v : BitVec width) (start len : Nat)
    (h : start + len ≤ lo ∨ lo + width ≤ start) : (placed lo v).extractLsb' start len = 0 := by
  apply BitVec.eq_of_getElem_eq
  intro i hi
  have hout : lo ≤ start + i → v.getLsbD (start + i - lo) = false := fun _ =>
    BitVec.getLsbD_of_ge _ _ (by omega)
  by_cases hi64 : start + i < 64
  · simpa [getElem_placed, BitVec.getLsbD_eq_getElem hi64] using hout
  · simp [BitVec.getLsbD_of_ge (placed lo v) _ (Nat.le_of_not_lt hi64)]

/-- A field at bit 0 is its number. -/
theorem toNat_placed_zero {width : Nat} (v : BitVec width) (h : width ≤ 64) : (placed 0 v).toNat = v.toNat := by
  rw [placed, BitVec.shiftLeft_zero, BitVec.toNat_setWidth_of_le h]

/-- A byte list whose first bit is `top` reads 0 above it. -/
theorem extract_placedBytes_above (top : Nat) (bs : List Byte) (start len : Nat) (hlen : 8 * bs.length ≤ top + 1)
    (h : bs ≠ [] → top < start) : (placedBytes top bs).extractLsb' start len = 0 := by
  induction bs generalizing top with
  | nil => exact BitVec.extractLsb'_zero
  | cons b bs ih =>
    have htop : top < start := h (List.cons_ne_nil b bs)
    rw [List.length_cons] at hlen
    rw [placedBytes, BitVec.extractLsb'_or, extract_placed_apart _ _ _ _ (by omega),
      ih _ (by omega) (fun _ => by omega)]
    exact BitVec.or_zero

/-- Byte `k` of a byte list from bit `top` downward stands `8 * k` bits below the first. -/
theorem extract_placedBytes (top : Nat) (bs : List Byte) (k : Nat) (hk : k < bs.length)
    (hlen : 8 * bs.length ≤ top + 1) (htop : top ≤ 63) :
    (placedBytes top bs).extractLsb' (top - 7 - 8 * k) 8 = bs[k] := by
  induction bs generalizing top k with
  | nil => cases hk
  | cons b bs ih =>
    rw [List.length_cons] at hlen hk
    rw [placedBytes, BitVec.extractLsb'_or]
    cases k with
    | zero =>
      have hrest : bs ≠ [] → top - 8 < top - 7 := fun hne => by
        have := List.length_pos_iff.mpr hne
        omega
      rw [Nat.mul_zero, Nat.sub_zero, extract_placed_same _ _ (by omega),
        extract_placedBytes_above _ _ _ _ (by omega) hrest]
      exact BitVec.or_zero
    | succ k =>
      have hpos : top - 7 - 8 * (k + 1) = top - 8 - 7 - 8 * k := by omega
      rw [extract_placed_apart _ _ _ _ (by omega), hpos, ih _ k (by omega) (by omega) (by omega)]
      exact BitVec.zero_or

/-! ### The views -/

/-- Every field of the `STATUS` view at its bits, and the bits between them 0 (selector 0x00). -/
theorem statusView_fields (s : State) :
    (statusView s).extractLsb' 0 2 = statusCode s.rspSt ∧ (statusView s).extractLsb' 2 2 = 0 ∧
      (statusView s).extractLsb' 4 4 = s.rspCnt ∧ (statusView s).extractLsb' 8 3 = s.encN ∧
      (statusView s).getLsbD 11 = false ∧ (statusView s).extractLsb' 12 3 = s.decN ∧
      (statusView s).getLsbD 15 = false ∧ (statusView s).getLsbD 16 = s.decStop ∧
      (statusView s).getLsbD 17 = s.decErr ∧ (statusView s).extractLsb' 18 46 = 0 := by
  simp [statusView, placedFlag, BitVec.extractLsb'_or, extract_placed_same, extract_placed_apart, getElem_placed]

/-- Selectors above 0x0A select no view. -/
theorem observe_of_gt (s : State) (sel : BitVec 8) (h : 0x0A < sel.toNat) : observe s sel = 0 := by
  have hne (c : Nat) (hc : c ≤ 0x0A) : sel ≠ BitVec.ofNat 8 c := by
    rintro rfl
    rw [BitVec.toNat_ofNat] at h
    omega
  simp [observe, hne]

/-- A port read that is the host's next action records the value and changes no register. -/
theorem step_readPort {s : State} {sel : BitVec 8} {rest : List HostAction} (hr : s.rstSeen = true)
    (hp : s.pending = .readPort sel :: rest) :
    step s = .next { s with pending := rest, seen := s.seen ++ [.portValue sel (observe s sel)] } :=
  (step_of_cons hp).trans (hostRead_of_rstSeen sel hr)

/-- Settles O53, view by view: `STATUS` is `statusView_fields`, the one-field views are at bit 0, and a byte view holds
its list from its top bit downward. -/
theorem observationPortShowsState : Obligations.ObservationPortShowsState := by
  intro s
  have hrsp (k : Fin 8) : (observe s 0x01).extractLsb' (56 - 8 * k.val) 8 = s.rspDat[k] :=
    extract_placedBytes 63 s.rspDat.toList k (by simp) (by simp) (by decide)
  have hchr (k : Fin 6) : (observe s 0x07).extractLsb' (40 - 8 * k.val) 8 = s.codeChr[k] :=
    extract_placedBytes 47 s.codeChr.toList k (by simp) (by simp) (by decide)
  have hdig0 (k : Fin 8) : (observe s 0x08).extractLsb' (56 - 8 * k.val) 8 = s.dig[k.val] :=
    (extract_placedBytes 63 (s.dig.toList.take 8) k (by simp) (by simp) (by decide)).trans (by simp)
  have hdig8 (k : Fin 8) : (observe s 0x09).extractLsb' (56 - 8 * k.val) 8 = s.dig[8 + k.val] :=
    (extract_placedBytes 63 ((s.dig.toList.drop 8).take 8) k (by simp) (by simp) (by decide)).trans (by simp)
  have hdig16 (k : Fin 4) : (observe s 0x0A).extractLsb' (24 - 8 * k.val) 8 = s.dig[16 + k.val] :=
    (extract_placedBytes 31 (s.dig.toList.drop 16) k (by simp) (by simp) (by decide)).trans (by simp)
  have hchrTop : (observe s 0x07).extractLsb' 48 16 = 0 :=
    extract_placedBytes_above 47 s.codeChr.toList 48 16 (by simp) (fun _ => by decide)
  have hdigTop : (observe s 0x0A).extractLsb' 32 32 = 0 :=
    extract_placedBytes_above 31 (s.dig.toList.drop 16) 32 32 (by simp) (fun _ => by decide)
  exact ⟨statusView_fields s, hrsp, toNat_placed_zero _ (by decide), toNat_placed_zero _ (by decide),
    toNat_placed_zero _ (by decide), toNat_placed_zero _ (by decide), toNat_placed_zero _ (by decide), hchr, hchrTop,
    hdig0, hdig8, hdig16, hdigTop, observe_of_gt s, fun _ _ => step_readPort⟩

end Sys2Proof.Proofs
end

/-! The command word (spec/30_encoding.md R80 to R85). `decode` undoes `encode`, and `encode` undoes `decode` up to the
bits the decoder does not read; that those bits change nothing follows from the two. -/

section
namespace Sys2Proof.Proofs

open Sys2Proof.Machine

/-! ### Operand fields of a written word -/

/-- The operand of a format with one field gives the field back (R81). -/
theorem extractLsb'_setWidth {width : Nat} (v : BitVec width) (h : width ≤ 64) :
    (v.setWidth 64).extractLsb' 0 width = v := by
  rw [BitVec.extractLsb'_setWidth_of_le (by omega), BitVec.extractLsb'_eq_self]

/-- `HT.DIG` writes its index above its byte (R81). -/
theorem fieldI_append (i b : Byte) : fieldI ((i ++ b).setWidth 64) = i := by
  apply BitVec.eq_of_toNat_eq
  rw [fieldI_toNat, BitVec.toNat_setWidth_of_le (by decide), BitVec.toNat_append,
    ← Nat.shiftLeft_add_eq_or_of_lt b.isLt, Nat.shiftLeft_eq]
  omega

/-- `HT.DIG` writes its byte below its index (R81). -/
theorem fieldB_append (i b : Byte) : fieldB ((i ++ b).setWidth 64) = b := by
  apply BitVec.eq_of_toNat_eq
  rw [fieldB_toNat, BitVec.toNat_setWidth_of_le (by decide), BitVec.toNat_append,
    ← Nat.shiftLeft_add_eq_or_of_lt b.isLt, Nat.shiftLeft_eq]
  omega

/-- The decoder reads back what the encoder wrote (R80, R81, R82). -/
theorem decode_encode (i : Instr) : decode (encode i) = .ok i := by
  rw [encode, decode_commandWord]
  cases i with
  | b32eByte b => exact congrArg (fun x => Except.ok (Instr.b32eByte x)) (extractLsb'_setWidth b (by decide))
  | b32dChar c => exact congrArg (fun x => Except.ok (Instr.b32dChar x)) (extractLsb'_setWidth c (by decide))
  | htDig i b => exact congrArg₂ (fun x y => Except.ok (Instr.htDig x y)) (fieldI_append i b) (fieldB_append i b)
  | _ => rfl

/-- Settles O1, by the operand fields of each format. -/
theorem decodeOfEncode : Obligations.DecodeOfEncode := decode_encode

/-! ### The encoding of a decoded instruction -/

/-- Writing back the `width` low bits of `DATA` clears the bits above them (R81, R84). -/
theorem setWidth_extractLsb' {width : Nat} (d mask : Data) (hw : width ≤ 64) (h : mask.toNat = 2 ^ width - 1) :
    (d.extractLsb' 0 width).setWidth 64 = d &&& mask := by
  apply BitVec.eq_of_toNat_eq
  rw [BitVec.toNat_and, h, Nat.and_two_pow_sub_one_eq_mod, BitVec.toNat_setWidth_of_le hw]
  simp

/-- The two fields of `HT.DIG` together are the 16 low bits of `DATA` (R81). -/
theorem fieldI_append_fieldB (d : Data) : fieldI d ++ fieldB d = d.extractLsb' 0 16 :=
  BitVec.extractLsb'_append_extractLsb'_eq_extractLsb' rfl

/-- The operand of a decoded instruction is the word's `DATA` without its ignored bits (R81, R84). -/
theorem operand_of_decodeFields {op : BitVec 8} {d : Data} {i : Instr} (h : decodeFields op d = .ok i) :
    i.operand = d &&& readMask op := by
  obtain rfl : i.opcode = op := opcode_of_decodeFields h
  cases i with
  | b32eByte b =>
    obtain rfl : fieldB d = b := Instr.b32eByte.inj (Except.ok.inj h)
    exact setWidth_extractLsb' d 0xFF (by decide) (by decide)
  | b32dChar c =>
    obtain rfl : fieldC d = c := Instr.b32dChar.inj (Except.ok.inj h)
    exact setWidth_extractLsb' d 0xFFFFFFFF (by decide) (by decide)
  | be64 n =>
    obtain rfl : d = n := Instr.be64.inj (Except.ok.inj h)
    exact BitVec.and_allOnes.symm
  | htDig i b =>
    obtain ⟨rfl, rfl⟩ : fieldI d = i ∧ fieldB d = b := Instr.htDig.inj (Except.ok.inj h)
    exact (congrArg _ (fieldI_append_fieldB d)).trans (setWidth_extractLsb' d 0xFFFF (by decide) (by decide))
  | _ => exact BitVec.and_zero.symm

/-- A decoded instruction is written as its word without the ignored bits (R80, R81, R84). -/
theorem encode_of_decodeFields {op : BitVec 8} {d : Data} {i : Instr} (h : decodeFields op d = .ok i) :
    encode i = commandWord op (d &&& readMask op) := by
  rw [encode, opcode_of_decodeFields h, operand_of_decodeFields h]

/-- Settles O2, by the opcode and the operand of the decoded instruction. -/
theorem encodeOfDecode : Obligations.EncodeOfDecode := fun _ _ => encode_of_decodeFields

/-! ### The unassigned opcodes and the ignored bits -/

/-- An opcode of the map decodes to an instruction, whatever `DATA` holds (R82, R85). -/
theorem decodeFields_of_assigned {op : BitVec 8} (d : Data) (h : op ∈ assignedOpcodes) :
    ∃ i, decodeFields op d = .ok i := by
  simp only [assignedOpcodes, List.mem_cons, List.not_mem_nil, or_false] at h
  rcases h with rfl | rfl | rfl | rfl | rfl | rfl | rfl | rfl | rfl | rfl | rfl | rfl <;> exact ⟨_, rfl⟩

/-- The decoder rejects a word exactly when its opcode is outside the map, and names that opcode (R85). -/
theorem decodeFields_eq_error_iff (op op' : BitVec 8) (d : Data) :
    decodeFields op d = .error (.unassignedOpcode op') ↔ op' = op ∧ op ∉ assignedOpcodes := by
  by_cases ha : op ∈ assignedOpcodes
  · obtain ⟨i, hi⟩ := decodeFields_of_assigned d ha
    simp [hi, ha]
  · simp [decodeFields_of_not_assigned op d ha, ha, eq_comm]

/-- Among the 256 opcodes the assigned ones are twelve (R82). -/
theorem range_filter_assigned_perm :
    ((List.range 256).filter fun n => decide (BitVec.ofNat 8 n ∈ assignedOpcodes)).Perm
      (assignedOpcodes.map BitVec.toNat) := by
  refine (List.perm_ext_iff_of_nodup (List.nodup_range.filter _) (by decide)).mpr fun n => ?_
  rw [List.mem_filter, List.mem_range, decide_eq_true_iff, List.mem_map]
  constructor
  · rintro ⟨hn, h⟩
    exact ⟨_, h, Nat.mod_eq_of_lt hn⟩
  · rintro ⟨op, h, rfl⟩
    exact ⟨op.isLt, by rwa [BitVec.ofNat_toNat, BitVec.setWidth_eq]⟩

/-- The other 244 are unassigned (R85). -/
theorem length_filter_unassigned :
    ((List.range 256).filter fun n => decide (BitVec.ofNat 8 n ∉ assignedOpcodes)).length = 244 := by
  have hsplit := List.length_eq_length_filter_add (l := List.range 256) fun n =>
    decide (BitVec.ofNat 8 n ∈ assignedOpcodes)
  have htwelve := range_filter_assigned_perm.length_eq
  simp only [List.length_range, List.length_map, List.length_cons, List.length_nil, decide_not] at *
  omega

/-- Settles O3: the rejected words are `decodeFields_eq_error_iff`, and the count is what the twelve assigned opcodes
leave of 256. -/
theorem decodeRejectsUnassigned : Obligations.DecodeRejectsUnassigned :=
  ⟨fun w op => decodeFields_eq_error_iff (opOf w) op (dataOf w), length_filter_unassigned⟩

/-- The decoder does not read the ignored bits: an instruction it answers is the one it reads back from the word with
those bits cleared, and a rejection depends on the opcode only (R84). -/
theorem decodeFields_and_readMask (op : BitVec 8) (d : Data) :
    decodeFields op (d &&& readMask op) = decodeFields op d := by
  by_cases ha : op ∈ assignedOpcodes
  · obtain ⟨i, hi⟩ := decodeFields_of_assigned d ha
    rw [hi, ← decode_commandWord, ← encode_of_decodeFields hi, decode_encode]
  · rw [decodeFields_of_not_assigned op _ ha, decodeFields_of_not_assigned op _ ha]

/-- Settles O5: the step runs what the decoder reads, and the decoder reads the same of both words. -/
theorem ignoredBitsChangeNothing : Obligations.IgnoredBitsChangeNothing := by
  intro s op d d' h
  have hread : decodeFields op d = decodeFields op d' := by
    rw [← decodeFields_and_readMask op d, h, decodeFields_and_readMask]
  rw [acceptCommand_commandWord, acceptCommand_commandWord, hread]

/-- Settles O4, by evaluating the decoder on the seven words. -/
theorem decodeWrittenWords : Obligations.DecodeWrittenWords :=
  ⟨by decide, by decide, by decide, by decide, by decide, by decide, by decide⟩

end Sys2Proof.Proofs
end

/-! The `OP:DATA` text of command words (spec/30_encoding.md R86): reading hexadecimal digits undoes writing them,
and neither number holds the colon that separates them. -/

section
namespace Sys2Proof.Proofs

open Sys2Proof.Machine

/-- The written digits are read with their values, and none of them is the colon (R86). -/
theorem hexChar_spec (d : Nat) (h : d < 16) : digitValue 16 (hexChar d) = some d ∧ hexChar d ≠ ':' := by
  revert d
  decide

/-- Digits are read from the left: the value of the first ones is what the others go on from (R86). -/
theorem digitsValue_append (base acc : Nat) (xs ys : List Char) :
    digitsValue base acc (xs ++ ys) = (digitsValue base acc xs).bind fun a => digitsValue base a ys := by
  induction xs generalizing acc with
  | nil => rfl
  | cons c xs ih =>
    rw [List.cons_append, digitsValue, digitsValue]
    cases digitValue base c with
    | none => rfl
    | some d => exact ih _

/-- The `k` written digits of a number are read as its value below `16 ^ k` (R86). -/
theorem digitsValue_hexDigits (k acc n : Nat) :
    digitsValue 16 acc (hexDigits k n) = some (acc * 16 ^ k + n % 16 ^ k) := by
  induction k generalizing n with
  | zero => simp [hexDigits, digitsValue, Nat.mod_one]
  | succ k ih =>
    have hdigit := (hexChar_spec (n % 16) (Nat.mod_lt _ (by decide))).1
    have hval : (acc * 16 ^ k + n / 16 % 16 ^ k) * 16 + n % 16 = acc * 16 ^ (k + 1) + n % 16 ^ (k + 1) := by
      rw [Nat.pow_succ', Nat.mod_mul]
      ring
    rw [hexDigits, digitsValue_append, ih]
    simp [digitsValue, hdigit, hval]

/-- A number that fits its digits is read back. -/
theorem digitsValue_hexDigits_of_lt {k n : Nat} (h : n < 16 ^ k) : digitsValue 16 0 (hexDigits k n) = some n := by
  rw [digitsValue_hexDigits, Nat.zero_mul, Nat.zero_add, Nat.mod_eq_of_lt h]

/-- No written digit is the colon. -/
theorem ne_colon_of_mem_hexDigits {k n : Nat} {c : Char} (h : c ∈ hexDigits k n) : c ≠ ':' := by
  induction k generalizing n with
  | zero => cases h
  | succ k ih =>
    rcases List.mem_append.mp h with h | h
    · exact ih h
    · exact List.mem_singleton.mp h ▸ (hexChar_spec _ (Nat.mod_lt _ (by decide))).2

/-- At least one digit is written where one is asked for. -/
theorem hexDigits_succ_ne_nil (k n : Nat) : hexDigits (k + 1) n ≠ [] :=
  List.append_ne_nil_of_right_ne_nil _ (List.cons_ne_nil _ _)

/-- Two numbers around the first colon are read as the two fields of a word (R86). -/
theorem parseWord_append_colon {op data : List Char} {o d : Nat} (hop : op ≠ []) (hdata : data ≠ [])
    (hcolon : ∀ c ∈ op, c ≠ ':') (ho : digitsValue 16 0 op = some o) (hd : digitsValue 16 0 data = some d) :
    parseWord (op ++ ':' :: data) = commandOfRaw o d := by
  have hne : ∀ c ∈ op, (c != ':') = true := fun c hc => bne_iff_ne.mpr (hcolon c hc)
  obtain ⟨x, xs, rfl⟩ := List.exists_cons_of_ne_nil hop
  obtain ⟨y, ys, rfl⟩ := List.exists_cons_of_ne_nil hdata
  rw [parseWord, List.dropWhile_append_of_pos hne, List.takeWhile_append_of_pos hne]
  simp [ho, hd]

/-- The numbers of a word's two fields make the word (R80). -/
theorem commandOfRaw_fields (w : CommandWord) : commandOfRaw (opOf w).toNat (dataOf w).toNat = some w := by
  have hop : (opOf w).toNat < 2 ^ 8 := (opOf w).isLt
  have hdata : (dataOf w).toNat < 2 ^ 64 := (dataOf w).isLt
  have hfit : WellFormed.rawCommand (opOf w).toNat (dataOf w).toNat = true := by
    simp only [WellFormed.rawCommand, decide_eq_true hop, decide_eq_true hdata, Bool.and_self]
  rw [commandOfRaw, if_pos hfit, BitVec.ofNat_toNat, BitVec.ofNat_toNat, BitVec.setWidth_eq, BitVec.setWidth_eq,
    commandWord_opOf_dataOf]

/-- The text of a word reads back as the word (R86). -/
theorem parseWord_wordText (w : CommandWord) : parseWord (wordText w) = some w := by
  rw [← commandOfRaw_fields w]
  exact parseWord_append_colon (hexDigits_succ_ne_nil 1 _) (hexDigits_succ_ne_nil 15 _)
    (fun _ => ne_colon_of_mem_hexDigits) (digitsValue_hexDigits_of_lt (opOf w).isLt)
    (digitsValue_hexDigits_of_lt (dataOf w).isLt)

/-- An instruction's word has no ignored bit set: it decodes, and a word that decodes is written back without its
ignored bits (R84, R86). -/
theorem dataOf_encode_and_readMask (i : Instr) :
    dataOf (encode i) &&& readMask (opOf (encode i)) = dataOf (encode i) := by
  have h := congrArg dataOf (encode_of_decodeFields (decode_encode i))
  rw [dataOf_commandWord] at h
  exact h.symm

/-- Settles O56, by `dataOf_encode_and_readMask` and `parseWord_wordText`. -/
theorem assemblyNotation : Obligations.AssemblyNotation :=
  ⟨dataOf_encode_and_readMask, parseWord_wordText⟩

end Sys2Proof.Proofs
end

/-! Lists of commands at the command port (spec/70_reset_and_hazards.md R226, R240), and the two expansions of
spec/30_encoding.md R87 that need no more: what `HT.LOAD` loads, `HT.HOTP` gives the code of (R179). -/

section
namespace Sys2Proof.Proofs

open Sys2Proof.Machine

/-! ### Issuing commands in order -/

/-- After the first reset the word the host issues for an instruction runs that instruction (R86, R100). -/
theorem issue_eq_exec (i : Instr) {s : State} (h : s.rstSeen = true) : issue i s = exec i s := by
  rw [issue, portCommand_of_rstSeen _ _ h, acceptCommand, decode_encode]

/-- The host reads back the status and the bytes a command answered (R18, R101). -/
theorem responseOf_respond (st : Status) {out : List Byte} (h : out.length ≤ 8) (s : State) :
    responseOf (respond st out s) = ⟨st, out⟩ := by
  obtain ⟨-, hcnt, hdat⟩ := answers_respond st out s (decide_eq_true h)
  rw [responseOf, hcnt]
  refine congrArg (Response.mk st) (List.ext_getElem (by simpa using h) fun k hk hk' => ?_)
  have hk8 : k < 8 := by omega
  rw [List.getElem_take, Vector.getElem_toList]
  exact (hdat ⟨k, hk8⟩).trans (List.getD_eq_getElem _ _ hk')

/-- From a next state the host goes on. -/
@[simp] theorem andThen_next {σ τ : Type} (a : σ) (f : σ → Host.Outcome τ Fault Refusal) :
    andThen (.next a) f = f a := rfl

/-- A list of commands whose first command answers: its response, then those of the rest. -/
theorem issueAll_cons {i : Instr} {is : List Instr} {s u v : State} {st : Status} {out : List Byte}
    {rs : List Response} (hr : s.rstSeen = true) (hx : exec i s = .next (respond st out u)) (hlen : out.length ≤ 8)
    (hrest : issueAll is (respond st out u) = .next (rs, v)) :
    issueAll (i :: is) s = .next (⟨st, out⟩ :: rs, v) := by
  simp only [issueAll, issue_eq_exec i hr, hx, andThen_next, hrest, responseOf_respond st hlen]

/-- Going on twice is going on once with both. -/
theorem andThen_assoc {σ τ υ : Type} (o : Host.Outcome σ Fault Refusal) (f : σ → Host.Outcome τ Fault Refusal)
    (g : τ → Host.Outcome υ Fault Refusal) : andThen (andThen o f) g = andThen o fun a => andThen (f a) g := by
  cases o <;> rfl

/-- The bytes of the first response come first (R240). -/
@[simp] theorem emitted_cons (r : Response) (rs : List Response) : emitted (r :: rs) = r.bytes ++ emitted rs := rfl

/-- Two lists of commands one after the other give their responses one after the other. -/
theorem issueAll_append (is js : List Instr) (s : State) :
    issueAll (is ++ js) s =
      andThen (issueAll is s) fun p => andThen (issueAll js p.2) fun q => .next (p.1 ++ q.1, q.2) := by
  induction is generalizing s with
  | nil =>
    simp only [List.nil_append, issueAll, andThen_next]
    cases issueAll js s <;> rfl
  | cons i is ih => simp only [List.cons_append, issueAll, ih, andThen_assoc, andThen_next]

/-! ### Loading a digest -/

/-- `HT.LOAD` writes the bytes of its list at increasing indices (R87). -/
theorem digWrites_eq_mapIdx (k : Nat) (hs : List Byte) :
    digWrites k hs = hs.mapIdx fun j b => .htDig (BitVec.ofNat 8 (k + j)) b := by
  induction hs generalizing k with
  | nil => rfl
  | cons b hs ih =>
    rw [digWrites, ih, List.mapIdx_cons]
    simp only [Nat.add_zero, Nat.add_assoc, Nat.add_comm 1]

/-- Each index of a digest is written with its byte (R87). -/
theorem pseudoLoad_eq_map (h : Digest) :
    pseudoLoad h = (List.finRange 20).map fun k : Fin 20 => .htDig (BitVec.ofNat 8 k.val) h[k] := by
  rw [pseudoLoad, digWrites_eq_mapIdx]
  exact List.ext_getElem (by simp) fun k _ _ => by simp

/-- `HT.DIG` with a legal index writes its byte (R172). -/
theorem exec_htDig_of_lt {k : Nat} (hk : k < 20) (b : Byte) (s : State) :
    exec (.htDig (BitVec.ofNat 8 k) b) s = .next (respond .ok [] (setDig k hk b s)) := by
  have hidx : (BitVec.ofNat 8 k).toNat = k := Nat.mod_eq_of_lt (by omega)
  simp only [exec, execHtDig, hidx, hk, dif_pos]

/-- Writing a digest's bytes from index `k` on completes a buffer that holds the digest below `k`. -/
theorem issueAll_digWrites (h : Digest) (hs : List Byte) (k : Nat) (s : State) (hr : s.rstSeen = true)
    (hrest : h.toList.drop k = hs) (hdone : ∀ (j : Nat) (hj : j < 20), j < k → s.dig[j] = h[j]) :
    ∃ rs t, issueAll (digWrites k hs) s = .next (rs, t) ∧ t.dig = h ∧ t.rstSeen = true ∧ ∀ r ∈ rs, r.status = .ok := by
  induction hs generalizing k s with
  | nil =>
    have hk : 20 ≤ k := by simpa using List.drop_eq_nil_iff.mp hrest
    exact ⟨[], s, rfl, Vector.ext fun j hj => hdone j hj (by omega), hr, by simp⟩
  | cons b hs ih =>
    have hk : k < 20 := by
      by_contra hge
      rw [List.drop_eq_nil_of_le (by simpa using hge)] at hrest
      cases hrest
    rw [List.drop_eq_getElem_cons (by simpa using hk), List.cons.injEq, Vector.getElem_toList] at hrest
    obtain ⟨hb, hrest⟩ := hrest
    have hdone' (j : Nat) (hj : j < 20) (hjk : j < k + 1) : (s.dig.set k b)[j] = h[j] := by
      by_cases hjk' : k = j
      · subst hjk'
        rw [Vector.getElem_set_self, hb]
      · rw [Vector.getElem_set_ne _ _ hjk']
        exact hdone j hj (by omega)
    obtain ⟨rs, t, hrun, hdig, hrt, hok⟩ := ih (k + 1) (respond .ok [] (setDig k hk b s)) hr hrest hdone'
    exact ⟨_, t, issueAll_cons hr (exec_htDig_of_lt hk b s) (by simp) hrun, hdig, hrt, by simpa using hok⟩

/-- `HT.LOAD` leaves its digest in the buffer, with every write answered OK (R87, R172). -/
theorem issueAll_pseudoLoad (h : Digest) {s : State} (hr : s.rstSeen = true) :
    ∃ rs t, issueAll (pseudoLoad h) s = .next (rs, t) ∧ t.dig = h ∧ t.rstSeen = true ∧ ∀ r ∈ rs, r.status = .ok :=
  issueAll_digWrites h h.toList 0 s hr rfl fun _ _ hj => absurd hj (Nat.not_lt_zero _)

/-- `HT.HOTP` answers the code of the digest buffer (R175). -/
theorem exec_htHotp (s : State) : ∃ u, exec .htHotp s = .next u ∧ (responseOf u).bytes = digestCode s.dig :=
  ⟨_, rfl, congrArg Response.bytes (responseOf_respond .ok (by simp) _)⟩

/-- `generateCode` runs to the code of the digest that HMAC-SHA1 gives for the counter's eight bytes (R237). -/
theorem generateCode_spec (key : List Byte) (c : Int) {s : State} (hr : s.rstSeen = true) :
    ∃ u, generateCode key c s = .next (digestCode (Config.hmacSha1 key (intToBytes (counterWord c))), u) := by
  have hbe : issue (.be64 (counterWord c)) s = .next (respond .ok (intToBytes (counterWord c)) s) :=
    issue_eq_exec _ hr
  have hmsg : responseOf (respond .ok (intToBytes (counterWord c)) s) = ⟨.ok, intToBytes (counterWord c)⟩ :=
    responseOf_respond .ok (by simp [intToBytes]) s
  obtain ⟨rs, t, hload, hdig, hrt, -⟩ := issueAll_pseudoLoad
    (Config.hmacSha1 key (intToBytes (counterWord c))) (s := respond .ok (intToBytes (counterWord c)) s) hr
  obtain ⟨u, hhotp, hcode⟩ := exec_htHotp t
  refine ⟨u, ?_⟩
  simp only [generateCode, hbe, andThen_next, hmsg, hload, issue_eq_exec _ hrt, hhotp, hcode, hdig]

/-- Settles O48, by `issueAll_pseudoLoad` and `generateCode_spec`. -/
theorem loadedDigestGivesItsCode : Obligations.LoadedDigestGivesItsCode := by
  refine ⟨fun s h hr => ?_, fun s key c hr => generateCode_spec key c hr⟩
  obtain ⟨rs, t, hload, rfl, -, hok⟩ := issueAll_pseudoLoad h hr
  obtain ⟨u, hhotp, hcode⟩ := exec_htHotp t
  exact ⟨rs, t, u, hload, rfl, hok, hhotp, hcode⟩

end Sys2Proof.Proofs
end

/-! Encode streams (spec/42_base32.md R130 to R134). The encoder's registers hold the bits of the stream that are not
emitted yet: feeding a byte takes whole groups off the front of those bits and the byte's, as `encodeBase32` does. -/

section
namespace Sys2Proof.Proofs

open Sys2Proof.Machine

/-! ### Bit strings as numbers -/

theorem bitsValue_foldl (bits : List Bool) (a : Nat) :
    bits.foldl (fun a b => 2 * a + b.toNat) a = a * 2 ^ bits.length + bitsValue bits := by
  induction bits generalizing a with
  | nil => simp [bitsValue]
  | cons b bits ih =>
    rw [bitsValue, List.foldl_cons, List.foldl_cons, ih, ih, List.length_cons]
    ring

/-- The first bits of a bit string are its most significant ones (R130). -/
theorem bitsValue_append (xs ys : List Bool) :
    bitsValue (xs ++ ys) = bitsValue xs * 2 ^ ys.length + bitsValue ys := by
  rw [← bitsValue_foldl, bitsValue, List.foldl_append, bitsValue]

theorem bitsValue_lt (bits : List Bool) : bitsValue bits < 2 ^ bits.length := by
  induction bits with
  | nil => decide
  | cons b bits ih =>
    have hb : bitsValue [b] ≤ 1 := by cases b <;> decide
    rw [← List.singleton_append, bitsValue_append, List.length_append, List.length_singleton, Nat.pow_add]
    have := Nat.mul_le_mul_right (2 ^ bits.length) hb
    omega

/-- Zeros behind a bit string shift its number (R130). -/
theorem bitsValue_append_zeros (bits : List Bool) (k : Nat) :
    bitsValue (bits ++ List.replicate k false) = bitsValue bits * 2 ^ k := by
  have hzero : bitsValue (List.replicate k false) = 0 := by
    induction k with
    | zero => rfl
    | succ k ih => rw [List.replicate_succ, ← List.singleton_append, bitsValue_append, ih]; simp [bitsValue]
  rw [bitsValue_append, hzero, List.length_replicate, Nat.add_zero]

theorem length_bitsOf (b : Byte) : (bitsOf b).length = 8 := rfl

/-- The bits of a byte make its number (R14). -/
theorem bitsValue_bitsOf (b : Byte) : bitsValue (bitsOf b) = b.toNat := by
  have htop : b.toNat / 2 / 2 / 2 / 2 / 2 / 2 / 2 < 2 := by have := b.isLt; omega
  simp only [bitsOf, bitsValue, List.foldl_cons, List.foldl_nil, BitVec.getLsbD, Nat.toNat_testBit, Nat.pow_succ,
    ← Nat.div_div_eq_div_mul, Nat.pow_zero, Nat.div_one]
  omega

/-! ### The characters of a bit string -/

/-- The groups of a bit string as characters, the last one filled with zeros: `encodeBase32` after it has written its
bytes as bits (R130). -/
def encodeBits (bits : List Bool) : List Byte :=
  (List.range (ceilDiv5 bits.length)).map fun j =>
    alpha (BitVec.ofNat 5 (bitsValue
      (((bits ++ List.replicate (5 * ceilDiv5 bits.length - bits.length) false).drop (5 * j)).take 5)))

theorem encodeBase32_eq (bs : List Byte) : encodeBase32 bs = encodeBits (bitString bs) := rfl

/-- A whole group in front is a character of its own (R130). -/
theorem encodeBits_group_append {g : List Bool} (hg : g.length = 5) (bits : List Bool) :
    encodeBits (g ++ bits) = alpha (BitVec.ofNat 5 (bitsValue g)) :: encodeBits bits := by
  have hceil : ceilDiv5 (5 + bits.length) = ceilDiv5 bits.length + 1 := by simp only [ceilDiv5]; omega
  have hfill : 5 * (ceilDiv5 bits.length + 1) - (5 + bits.length) = 5 * ceilDiv5 bits.length - bits.length := by
    omega
  have hdrop (j : Nat) (xs : List Bool) : (g ++ xs).drop (5 * (j + 1)) = xs.drop (5 * j) := by
    rw [show 5 * (j + 1) = g.length + 5 * j by omega, List.drop_length_add_append]
  simp only [encodeBits, List.length_append, hg, hceil, hfill, List.range_succ_eq_map, List.map_cons, List.map_map,
    List.append_assoc, Function.comp_def, Nat.succ_eq_add_one, hdrop, Nat.mul_zero, List.drop_zero,
    List.take_left' hg]

/-- Fewer bits than a group are one character, zero-filled on the right (R130, R133). -/
theorem encodeBits_partial {bits : List Bool} (h0 : bits ≠ []) (h5 : bits.length < 5) :
    encodeBits bits = [alpha (BitVec.ofNat 5 (bitsValue bits * 2 ^ (5 - bits.length)))] := by
  have hpos := List.length_pos_iff.mpr h0
  have hceil : ceilDiv5 bits.length = 1 := by simp only [ceilDiv5]; omega
  have htake : (bits ++ List.replicate (5 - bits.length) false).take 5 =
      bits ++ List.replicate (5 - bits.length) false := List.take_of_length_le (by simp; omega)
  rw [encodeBits, hceil]
  simp only [List.range_one, List.map_cons, List.map_nil, Nat.mul_zero, Nat.mul_one, List.drop_zero, htake,
    bitsValue_append_zeros]

/-! ### The encoder on bits -/

/-- The loop of R132 takes whole groups off the front of the bits it is given and leaves fewer than five. -/
theorem encGroups_spec (fuel t : Nat) (bits : List Bool) (out : List Byte)
    (ht : t % 2 ^ bits.length = bitsValue bits) (hfuel : bits.length < 5 * fuel + 5) :
    ∃ cs rest, encGroups fuel t bits.length out = (out ++ cs, rest.length) ∧ rest.length < 5 ∧
      t % 2 ^ rest.length = bitsValue rest ∧ ∀ more, encodeBits (bits ++ more) = cs ++ encodeBits (rest ++ more) := by
  induction fuel generalizing bits out with
  | zero => exact ⟨[], bits, by simp [encGroups], hfuel, ht, fun _ => rfl⟩
  | succ fuel ih =>
    rw [encGroups]
    split
    case isFalse hlt => exact ⟨[], bits, by simp, by omega, ht, fun _ => rfl⟩
    case isTrue hge =>
      obtain ⟨g, bits, hg, rfl⟩ : ∃ g xs, g.length = 5 ∧ bits = g ++ xs :=
        ⟨bits.take 5, bits.drop 5, by simpa using hge, (List.take_append_drop 5 bits).symm⟩
      have hlen : (g ++ bits).length - 5 = bits.length := by simp [hg]
      rw [bitsValue_append, List.length_append, hg, Nat.add_comm, Nat.pow_add] at ht
      have hsum : bitsValue bits + 2 ^ bits.length * bitsValue g = t % (2 ^ bits.length * 2 ^ 5) := by rw [ht]; ring
      obtain ⟨hhigh, hlow⟩ :=
        (Nat.div_mod_unique (Nat.two_pow_pos bits.length)).mpr ⟨hsum, bitsValue_lt bits⟩
      rw [Nat.mod_mul_right_div_self] at hhigh
      rw [Nat.mod_mul_right_mod] at hlow
      have hchar : group5 (t >>> bits.length) = BitVec.ofNat 5 (bitsValue g) := by
        rw [group5_eq, Nat.shiftRight_eq_div_pow, ← hhigh]
        exact BitVec.eq_of_toNat_eq (by simp)
      rw [hlen, hchar]
      obtain ⟨cs, rest, hrun, hlt, hval, hmore⟩ := ih bits _ hlow (by rw [List.length_append] at hfuel; omega)
      refine ⟨alpha (BitVec.ofNat 5 (bitsValue g)) :: cs, rest, ?_, hlt, hval, fun more => ?_⟩
      · rw [hrun, List.append_assoc, List.singleton_append]
      · rw [List.append_assoc, encodeBits_group_append hg, hmore, List.cons_append]

/-- The encoder's registers hold these bits of its stream, fewer than a group (R33). -/
def EncHolds (s : State) (bits : List Bool) : Prop :=
  s.encN.toNat = bits.length ∧ s.encAcc.toNat = bitsValue bits ∧ bits.length < 5

/-- A byte through the encoder emits the whole groups of the held bits and its own, and the rest is held (R132). -/
theorem encFeed_spec {s : State} {bits : List Bool} (h : EncHolds s bits) (b : Byte) :
    ∃ rest, EncHolds (setEnc (encFeed s.encAcc s.encN b).2.1 (encFeed s.encAcc s.encN b).2.2 s) rest ∧
      ∀ more, encodeBits (bits ++ (bitsOf b ++ more)) =
        (encFeed s.encAcc s.encN b).1 ++ encodeBits (rest ++ more) := by
  obtain ⟨hn, hacc, hlt⟩ := h
  have hlen : (bits ++ bitsOf b).length = s.encN.toNat + 8 := by simp [hn, length_bitsOf]
  have hword : s.encAcc.toNat <<< 8 ||| b.toNat = bitsValue (bits ++ bitsOf b) := by
    rw [enc_word, bitsValue_append, bitsValue_bitsOf, hacc, length_bitsOf]
    norm_num
  obtain ⟨cs, rest, hrun, hlt, hval, hmore⟩ := encGroups_spec 3 (bitsValue (bits ++ bitsOf b)) (bits ++ bitsOf b) []
    (Nat.mod_eq_of_lt (bitsValue_lt _)) (by omega)
  rw [hlen, List.nil_append] at hrun
  have hfeed : encFeed s.encAcc s.encN b =
      (cs, BitVec.ofNat 4 (bitsValue rest), BitVec.ofNat 3 rest.length) := by
    simp only [encFeed, hword, hrun, and_maskBits, hval]
  have hfit : bitsValue rest < 2 ^ 4 :=
    (bitsValue_lt rest).trans_le (Nat.pow_le_pow_right (by decide) (by omega))
  refine ⟨rest, ⟨?_, ?_, hlt⟩, fun more => ?_⟩
  · rw [hfeed]
    exact Nat.mod_eq_of_lt (by omega)
  · rw [hfeed]
    exact Nat.mod_eq_of_lt hfit
  · rw [hfeed, ← List.append_assoc, hmore]

/-- The end of the stream emits what is held (R133). -/
theorem encFlush_spec {s : State} {bits : List Bool} (h : EncHolds s bits) :
    encFlush s.encAcc s.encN = encodeBits bits := by
  obtain ⟨hn, hacc, hlt⟩ := h
  rw [encFlush, group5_eq, Nat.shiftLeft_eq, hn, hacc]
  cases bits with
  | nil => rfl
  | cons b bits => rw [if_pos (by simp), encodeBits_partial (List.cons_ne_nil b bits) hlt]

/-- The rest of an encode stream emits the characters of the held bits and its bytes' (R134). -/
theorem issueAll_encStream (bs : List Byte) {s : State} {bits : List Bool} (hr : s.rstSeen = true)
    (h : EncHolds s bits) :
    ∃ rs t, issueAll (bs.map .b32eByte ++ [.b32eFin]) s = .next (rs, t) ∧
      emitted rs = encodeBits (bits ++ bitString bs) := by
  induction bs generalizing s bits with
  | nil =>
    have hlen : (encFlush s.encAcc s.encN).length ≤ 8 := by rw [encFlush]; split <;> simp
    refine ⟨_, _, issueAll_cons hr rfl hlen rfl, ?_⟩
    simp [emitted, encFlush_spec h, bitString]
  | cons b bs ih =>
    obtain ⟨rest, hrest, hmore⟩ := encFeed_spec h b
    obtain ⟨rs, t, hrun, hout⟩ := ih (s := respond .ok (encFeed s.encAcc s.encN b).1
      (setEnc (encFeed s.encAcc s.encN b).2.1 (encFeed s.encAcc s.encN b).2.2 s)) hr hrest
    have hlen := (encFeed_alphabet s.encAcc s.encN b).1
    refine ⟨_, t, issueAll_cons hr rfl (by omega) hrun, ?_⟩
    rw [emitted_cons, hout]
    exact (hmore (bitString bs)).symm

/-- `B32E.BYTES` encodes its bytes, whatever the encoder held: it clears it first (R87, R134). -/
theorem hostEncode_spec (bs : List Byte) {s : State} (hr : s.rstSeen = true) :
    ∃ t, hostEncode bs s = .next (encodeBase32 bs, t) := by
  obtain ⟨rs, t, hrun, hout⟩ :=
    issueAll_encStream bs (s := respond .ok [] (setEnc 0 0 s)) (bits := []) hr ⟨rfl, rfl, by decide⟩
  have hencode : emitted rs = encodeBase32 bs := hout.trans (encodeBase32_eq bs).symm
  refine ⟨t, ?_⟩
  rw [hostEncode, pseudoBytes, List.cons_append, issueAll_cons hr rfl (by simp) hrun, andThen_next, emitted_cons,
    hencode]
  rfl

end Sys2Proof.Proofs
end

/-! Decode streams (spec/42_base32.md R141 to R145). While a stream runs, the decoder's residual holds the variables of
`decodeBase32`'s loop; once it has stopped or failed, its characters change nothing and emit nothing. -/

section
namespace Sys2Proof.Proofs

open Sys2Proof.Machine

/-- One alphabet character through the loop of R141 is one through the decoder (R143): the residual is below
`2 ^ DEC_N`, so the mask of the longer branch drops nothing. -/
theorem decodeLoop_cons_alphabet {c : CharCode} {v : BitVec 5} (hc : classify c = .alphabet v) {acc : BitVec 7}
    {n : BitVec 3} (hacc : acc.toNat < 2 ^ n.toNat) (cs : List CharCode) (out : List Byte) :
    decodeLoop (c :: cs) acc.toNat n.toNat out =
      decodeLoop cs (decFeed acc n v).2.1.toNat (decFeed acc n v).2.2.toNat (out ++ (decFeed acc n v).1) := by
  have hn : n.toNat < 8 := n.isLt
  have hv : v.toNat < 32 := v.isLt
  simp only [decodeLoop, hc, dec_word]
  by_cases h : n.toNat ≤ 2
  · have hword : acc.toNat * 32 + v.toNat < 2 ^ (n.toNat + 5) := by rw [Nat.pow_add]; omega
    have hword7 : acc.toNat * 32 + v.toNat < 2 ^ 7 :=
      hword.trans_le (Nat.pow_le_pow_right (by decide) (by omega))
    rw [if_neg (by omega), decFeed_none _ _ v h]
    simp only [BitVec.toNat_ofNat, List.append_nil, Nat.mod_eq_of_lt hword, Nat.mod_eq_of_lt hword7,
      Nat.mod_eq_of_lt (by omega : n.toNat + 5 < 2 ^ 3)]
  · have hrest : (acc.toNat * 32 + v.toNat) % 2 ^ (n.toNat - 3) < 2 ^ 7 :=
      (Nat.mod_lt _ (Nat.two_pow_pos _)).trans_le (Nat.pow_le_pow_right (by decide) (by omega))
    have hbyte (x : Nat) : BitVec.ofNat 8 (x &&& 0xFF) = BitVec.ofNat 8 x :=
      BitVec.eq_of_toNat_eq (by simp [Nat.and_two_pow_sub_one_eq_mod x 8])
    rw [if_pos (by omega), decFeed_one _ _ v (by omega)]
    simp only [BitVec.toNat_ofNat, and_maskBits, hbyte, Nat.shiftRight_eq_div_pow, Nat.mod_eq_of_lt hrest,
      Nat.mod_eq_of_lt (by omega : n.toNat - 3 < 2 ^ 3)]

section RunningStream

variable {s : State} {c : CharCode} (herr : s.decErr = false) (hstop : s.decStop = false)
include herr hstop

/-- The first pad stops a running stream (R143). -/
theorem exec_b32dChar_pad (hc : classify c = .pad) :
    exec (.b32dChar c) s = .next (respond .ok [] (setStop s)) := by
  simp [exec, execB32dChar, herr, hstop, hc]

/-- An invalid character fails a running stream (R143). -/
theorem exec_b32dChar_invalid (hc : classify c = .invalid) :
    exec (.b32dChar c) s = .next (respond .invalidEncoding [] (setErr s)) := by
  simp [exec, execB32dChar, herr, hstop, hc, raise_eq]

/-- An alphabet character goes through the decoder of a running stream (R143). -/
theorem exec_b32dChar_alphabet {v : BitVec 5} (hc : classify c = .alphabet v) :
    exec (.b32dChar c) s = .next (respond .ok (decFeed s.decAcc s.decN v).1
      (setDec (decFeed s.decAcc s.decN v).2.1 (decFeed s.decAcc s.decN v).2.2 s)) := by
  simp [exec, execB32dChar, herr, hstop, hc]

end RunningStream

/-- A character of a stream that has failed or stopped changes no register but the response's, and emits nothing
(R143, R149, R150). -/
theorem exec_b32dChar_of_ended (c : CharCode) {s : State} (h : s.decErr = true ∨ s.decStop = true) :
    exec (.b32dChar c) s = .next (respond (decVerdict s) [] s) := by
  simp only [exec, execB32dChar, decVerdict, raise_eq]
  rcases Bool.eq_false_or_eq_true s.decErr with herr | herr
  · simp [herr]
  · simp [herr, h.resolve_left (by simp [herr])]

/-- So does any number of them. -/
theorem issueAll_chars_of_ended (cs : List CharCode) {s : State} (hr : s.rstSeen = true)
    (h : s.decErr = true ∨ s.decStop = true) :
    ∃ rs t, issueAll (cs.map .b32dChar) s = .next (rs, t) ∧ emitted rs = [] ∧ t.decErr = s.decErr ∧
      t.rstSeen = true := by
  induction cs generalizing s with
  | nil => exact ⟨[], s, rfl, rfl, rfl, hr⟩
  | cons c cs ih =>
    obtain ⟨rs, t, hrun, hout, herr, hrt⟩ := ih (s := respond (decVerdict s) [] s) hr h
    exact ⟨_, t, issueAll_cons hr (exec_b32dChar_of_ended c h) (by simp) hrun, hout, herr, hrt⟩

/-- What the host makes of a decode stream: its bytes, unless the stream has failed (R151, R152). -/
def decodeResult (failed : Bool) (out : List Byte) : Except InvalidEncodingError (List Byte) :=
  if failed then .error .invalidEncoding else .ok out

/-- The characters of a running stream decode as the loop of R141 does from the decoder's residual on; `out` is what
the stream has emitted before (R145). -/
theorem issueAll_chars (cs : List CharCode) {s : State} (out : List Byte) (hr : s.rstSeen = true) (hinv : DecInv s)
    (herr : s.decErr = false) (hstop : s.decStop = false) :
    ∃ rs t, issueAll (cs.map .b32dChar) s = .next (rs, t) ∧ t.rstSeen = true ∧
      decodeResult t.decErr (out ++ emitted rs) = decodeLoop cs s.decAcc.toNat s.decN.toNat out := by
  induction cs generalizing s out with
  | nil => exact ⟨[], s, rfl, hr, by simp [decodeResult, herr, emitted, decodeLoop]⟩
  | cons c cs ih =>
    cases hc : classify c with
    | pad =>
      obtain ⟨rs, t, hrun, hout, herrt, hrt⟩ :=
        issueAll_chars_of_ended cs (s := respond .ok [] (setStop s)) hr (.inr rfl)
      refine ⟨_, t, issueAll_cons hr (exec_b32dChar_pad herr hstop hc) (by simp) hrun, hrt, ?_⟩
      have hterr : t.decErr = false := herrt.trans herr
      simp [decodeResult, hterr, hout, decodeLoop, hc]
    | invalid =>
      obtain ⟨rs, t, hrun, -, herrt, hrt⟩ :=
        issueAll_chars_of_ended cs (s := respond .invalidEncoding [] (setErr s)) hr (.inl rfl)
      refine ⟨_, t, issueAll_cons hr (exec_b32dChar_invalid herr hstop hc) (by simp) hrun, hrt, ?_⟩
      have hterr : t.decErr = true := herrt
      simp [decodeResult, hterr, decodeLoop, hc]
    | alphabet v =>
      have hlen : (decFeed s.decAcc s.decN v).1.length ≤ 8 := by simp only [decFeed]; split <;> simp
      obtain ⟨rs, t, hrun, hrt, hout⟩ := ih (s := respond .ok (decFeed s.decAcc s.decN v).1
        (setDec (decFeed s.decAcc s.decN v).2.1 (decFeed s.decAcc s.decN v).2.2 s))
        (out ++ (decFeed s.decAcc s.decN v).1) hr (decInv_decFeed s v) herr hstop
      refine ⟨_, t, issueAll_cons hr (exec_b32dChar_alphabet herr hstop hc) hlen hrun, hrt, ?_⟩
      rw [decodeLoop_cons_alphabet hc hinv.1]
      simpa using hout

/-- The last response's status is the verdict of a stream (R144). -/
theorem lastStatus_append_singleton (rs : List Response) (r : Response) : lastStatus (rs ++ [r]) = r.status := by
  simp [lastStatus]

/-- The host takes the bytes of a stream exactly under an OK verdict (R144, R151). -/
theorem decodeResult_eq (t : State) (out : List Byte) :
    (if decVerdict t = .ok then .ok out else .error .invalidEncoding) = decodeResult t.decErr out := by
  unfold decVerdict decodeResult
  cases t.decErr <;> rfl

/-- `B32D.STR` decodes its string, whatever the decoder held: it clears it first, and the verdict of `B32D.FIN` tells
whether the stream has failed (R87, R144, R145). -/
theorem hostDecode_spec (cs : List CharCode) {s : State} (hr : s.rstSeen = true) :
    ∃ t, hostDecode cs s = .next (decodeBase32 cs, t) := by
  obtain ⟨rs, t, hrun, hrt, hout⟩ :=
    issueAll_chars cs (s := respond .ok [] (clearDec s)) [] hr (by simp [DecInv]) rfl rfl
  have hdecode : decodeResult t.decErr (emitted rs) = decodeBase32 cs := hout
  have hfin : issueAll [.b32dFin] t =
      .next ([⟨decVerdict t, []⟩], respond (decVerdict t) [] (clearDec t)) := issueAll_cons hrt rfl (by simp) rfl
  have hstream : issueAll (cs.map .b32dChar ++ [.b32dFin]) (respond .ok [] (clearDec s)) =
      .next (rs ++ [⟨decVerdict t, []⟩], respond (decVerdict t) [] (clearDec t)) := by
    rw [issueAll_append, hrun, andThen_next, hfin, andThen_next]
  have hbytes : emitted (⟨.ok, []⟩ :: rs ++ [⟨decVerdict t, []⟩]) = emitted rs := by simp [emitted]
  refine ⟨respond (decVerdict t) [] (clearDec t), ?_⟩
  rw [hostDecode, pseudoStr, List.cons_append, issueAll_cons hr rfl (by simp) hstream, andThen_next,
    ← List.cons_append, lastStatus_append_singleton, hbytes, decodeResult_eq, hdecode]

/-- Settles O55, by `hostEncode_spec`, `hostDecode_spec` and `pseudoLoad_eq_map`. -/
theorem pseudoCommandsDoTheirFunction : Obligations.PseudoCommandsDoTheirFunction :=
  ⟨fun bs _ => hostEncode_spec bs, fun cs _ => hostDecode_spec cs, pseudoLoad_eq_map⟩

end Sys2Proof.Proofs
end

/-! The block's step (spec/40_system.md R100 to R104): how a command word reaches its meaning, what every command and
every host action answers, and that a command reads and writes the registers of its own unit only. -/

section
namespace Sys2Proof.Proofs

open Sys2Proof.Machine

/-! ### From a command word to its meaning -/

/-- A word that decodes runs its instruction (R100). -/
theorem acceptCommand_of_decode {w : CommandWord} {i : Instr} (h : decode w = .ok i) (s : State) :
    acceptCommand w s = exec i s := by
  rw [acceptCommand, h]

/-- A word that does not decode answers ILLEGAL_COMMAND over the state as it was (R103). -/
theorem acceptCommand_of_decode_error {w : CommandWord} {e : DecodeReject} (h : decode w = .error e) (s : State) :
    acceptCommand w s = .next (respond .illegalCommand [] s) := by
  cases e
  rw [acceptCommand, h]
  rfl

/-- A word given by its fields runs what the decoder reads from them (R80, R100). -/
theorem acceptCommand_of_decodeFields {op : BitVec 8} {d : Data} {i : Instr} (h : decodeFields op d = .ok i)
    (s : State) : acceptCommand (commandWord op d) s = exec i s :=
  acceptCommand_of_decode ((decode_commandWord op d).trans h) s

/-- An opcode outside the map is answered with ILLEGAL_COMMAND, whatever `DATA` holds (R103, R202). -/
theorem acceptCommand_of_not_assigned {op : BitVec 8} (h : op ∉ assignedOpcodes) (d : Data) (s : State) :
    acceptCommand (commandWord op d) s = .next (respond .illegalCommand [] s) :=
  acceptCommand_of_decode_error ((decode_commandWord op d).trans (decodeFields_of_not_assigned op d h)) s

/-- Settles O6: every word responds (`acceptCommand_responds`), the decoder reads each row of the opcode map as its
instruction, and it rejects every other opcode. -/
theorem commandStepIsTotal : Obligations.CommandStepIsTotal := by
  refine ⟨fun w s => ?_, fun d s => ?_⟩
  · obtain ⟨st, out, u, hu, -⟩ := acceptCommand_responds w s
    exact ⟨_, hu⟩
  · have hrow {op : BitVec 8} {i : Instr} (h : decodeFields op d = .ok i) :
        acceptCommand (commandWord op d) s = exec i s := acceptCommand_of_decodeFields h s
    exact ⟨hrow rfl, hrow rfl, hrow rfl, hrow rfl, hrow rfl, hrow rfl, hrow rfl, hrow rfl, hrow rfl, hrow rfl,
      hrow rfl, hrow rfl, fun _ hop => acceptCommand_of_not_assigned hop d s⟩

/-! ### Responses -/

/-- A response with no bytes answers just its status, and changes no register of a unit (R101). -/
theorem respond_nil_spec (st : Status) (s : State) :
    Answers (respond st [] s) st [] ∧ UnitsSame s (respond st [] s) :=
  ⟨answers_respond st [] s rfl, respond_frame st [] s⟩

/-- Settles O17: NOP is the empty OK response, and so is its word with any `DATA`. -/
theorem nopAnswersNothing : Obligations.NopAnswersNothing := fun s d =>
  ⟨respond .ok [] s, rfl, acceptCommand_of_decodeFields (i := .nop) (d := d) rfl s, respond_nil_spec .ok s⟩

/-- Settles O18: an unassigned opcode is the empty ILLEGAL_COMMAND response. -/
theorem unassignedOpcodeAnswersIllegal : Obligations.UnassignedOpcodeAnswersIllegal := fun s _ d hop =>
  ⟨respond .illegalCommand [] s, acceptCommand_of_not_assigned hop d s, respond_nil_spec .illegalCommand s⟩

/-- No instruction reads the response registers, and every instruction overwrites all three (R101). -/
theorem exec_of_response (i : Instr) (s : State) (st : Status) (cnt : BitVec 4) (dat : Vector Byte 8) :
    exec i { s with rspSt := st, rspCnt := cnt, rspDat := dat } = exec i s := by
  cases i <;> rfl

/-- No command word reads the response registers either, of an assigned opcode or not (R101). -/
theorem acceptCommand_of_response (w : CommandWord) (s : State) (st : Status) (cnt : BitVec 4)
    (dat : Vector Byte 8) :
    acceptCommand w { s with rspSt := st, rspCnt := cnt, rspDat := dat } = acceptCommand w s := by
  cases hw : decode w with
  | ok i => rw [acceptCommand_of_decode hw, acceptCommand_of_decode hw, exec_of_response]
  | error e => rw [acceptCommand_of_decode_error hw, acceptCommand_of_decode_error hw]; rfl

/-- Settles O7: every command word ends in a response of at most 8 bytes, and no command word reads the last one. -/
theorem everyCommandResponds : Obligations.EveryCommandResponds := by
  refine ⟨fun w s => ?_, acceptCommand_of_response⟩
  obtain ⟨st, out, u, hu, hlen, -, -⟩ := acceptCommand_responds w s
  exact ⟨respond st out u, out, hu, hlen, answers_respond st out u (decide_eq_true hlen)⟩

/-! ### The host's next action -/

/-- After the first reset the host sees the response of the command it issues (R233 a, R240). -/
theorem hostCommand_of_next {w : CommandWord} {s t : State} (hr : s.rstSeen = true)
    (h : acceptCommand w s = .next t) : hostCommand w s = .next (record (.response (responseOf t)) t) := by
  rw [hostCommand, portCommand_of_rstSeen w s hr, h, andThen_next]

/-- A step whose next action is a command runs the command, with that action taken, and records its response. -/
theorem step_command {w : CommandWord} {rest : List HostAction} {s t : State} (hr : s.rstSeen = true)
    (hp : s.pending = .command w :: rest) (h : acceptCommand w (setPending rest s) = .next t) :
    step s = .next (record (.response (responseOf t)) t) :=
  (step_of_cons hp).trans (hostCommand_of_next hr h)

/-- Settles O8, by `step_command`: a word that decodes runs its instruction, and any other is answered with
ILLEGAL_COMMAND. -/
theorem stepRunsDecodedInstruction : Obligations.StepRunsDecodedInstruction := by
  intro s w rest hr hp
  refine ⟨fun i t hi hx => ?_, fun e he => ?_⟩
  · exact step_command hr hp ((acceptCommand_of_decode hi _).trans hx)
  · rw [step_command hr hp (acceptCommand_of_decode_error he _), responseOf_respond _ (by simp)]
    rfl

/-- After the first reset every action of the host is answered, and the reset stays remembered (R221, R233). -/
theorem hostAct_answers (a : HostAction) {s : State} (hr : s.rstSeen = true) :
    ∃ t, hostAct a s = .next t ∧ t.rstSeen = true := by
  cases a with
  | command w =>
    obtain ⟨st, out, u, hu, -, -, -, -, hrst⟩ := acceptCommand_responds w s
    exact ⟨_, hostCommand_of_next hr hu, hrst.trans hr⟩
  | readPort sel => exact ⟨_, hostRead_of_rstSeen sel hr, hr⟩
  | assertRst => exact ⟨_, rfl, rfl⟩

/-- After the first reset every step is answered: with no action left, by the state itself (R213). -/
theorem step_answers {s : State} (hr : s.rstSeen = true) : ∃ t, step s = .next t ∧ t.rstSeen = true := by
  cases hp : s.pending with
  | nil => exact ⟨s, step_of_nil hp, hr⟩
  | cons a rest => exact step_of_cons hp ▸ hostAct_answers a hr

/-- Settles O9: the step answers by `step_answers`, and what it answers has the invariants by O16. -/
theorem stepAnswersAfterReset : Obligations.StepAnswersAfterReset := by
  intro s hr
  obtain ⟨t, hst, hrt⟩ := step_answers hr
  exact ⟨⟨t, hst, hrt⟩, fun hs => ⟨t, hst, stepKeepsInvariants s t hs hst⟩⟩

/-! ### The units are independent -/

/-- The opcodes of R32's written-by column belong to instructions of the unit whose registers they write (R82). -/
theorem unit_of_opcode_mem (i : Instr) :
    (i.opcode ∈ [0x10, 0x11, 0x12] → i.unit = .encoder) ∧ (i.opcode ∈ [0x20, 0x21, 0x22] → i.unit = .decoder) ∧
    (i.opcode ∈ [0x40, 0x41, 0x42, 0x43] → i.unit = .hotp) := by
  cases i <;> simp [Instr.opcode, Instr.unit]

/-- An instruction changes no register of another unit: it writes where the column lists it (R32, R104). -/
theorem unitAgrees_of_exec {i : Instr} {s t : State} (h : exec i s = .next t) {k : BlockUnit} (hk : k ≠ i.unit) :
    UnitAgrees k s t := by
  obtain ⟨st, out, u, hu, hw⟩ := exec_unitWrite i s
  obtain rfl : respond st out u = t := Host.Outcome.next.inj (hu.symm.trans h)
  obtain ⟨henc, hdec, hdig, htr, hcode, -⟩ := hw.frame
  obtain ⟨hunitEnc, hunitDec, hunitHotp⟩ := unit_of_opcode_mem i
  cases k with
  | system | counter => exact trivial
  | encoder => exact henc fun hop => hk (hunitEnc hop).symm
  | decoder => exact hdec fun hop => hk (hunitDec hop).symm
  | hotp =>
    have hnot : i.opcode ∉ [0x40, 0x41, 0x42, 0x43] := fun hop => hk (hunitHotp hop).symm
    have hsub (l : List (BitVec 8)) (hl : l ⊆ [0x40, 0x41, 0x42, 0x43]) : i.opcode ∉ l := fun hop => hnot (hl hop)
    exact ⟨hdig (List.ne_of_not_mem_cons hnot), htr (hsub _ (by simp)), hcode (hsub _ (by simp))⟩

/-- Both states answer the instruction, with the same response and the same registers of the unit `k`. -/
def AnswersAlike (k : BlockUnit) (i : Instr) (s s' : State) : Prop :=
  ∃ t t', exec i s = .next t ∧ exec i s' = .next t' ∧ RspSame t t' ∧ UnitAgrees k t t'

/-- Two states answer alike when their responses are equal, over registers that agree on the unit. -/
theorem answersAlike_of_respond {k : BlockUnit} {i : Instr} {s s' u u' : State} {st st' : Status}
    {out out' : List Byte} (hu : exec i s = .next (respond st out u)) (hu' : exec i s' = .next (respond st' out' u'))
    (hst : st' = st) (hout : out' = out) (hk : UnitAgrees k u u') : AnswersAlike k i s s' := by
  subst hst hout
  refine ⟨_, _, hu, hu', ⟨rfl, rfl, rfl⟩, ?_⟩
  cases k <;> exact hk

/-- The verdict of a stream reads `DEC_ERR` only (R144). -/
theorem decVerdict_congr {s s' : State} (h : s'.decErr = s.decErr) : decVerdict s' = decVerdict s := by
  rw [decVerdict, h, decVerdict]

/-- The encoder's feed reads the residual only (R132). -/
theorem encFeed_congr {s s' : State} (h : EncSame s s') (b : Byte) :
    encFeed s'.encAcc s'.encN b = encFeed s.encAcc s.encN b := by
  obtain ⟨hacc, hn⟩ := h
  rw [hacc, hn]

/-- The decoder's feed reads the residual only (R143). -/
theorem decFeed_congr {s s' : State} (h : DecSame s s') (v : BitVec 5) :
    decFeed s'.decAcc s'.decN v = decFeed s.decAcc s.decN v := by
  obtain ⟨hacc, hn, -⟩ := h
  rw [hacc, hn]

/-- Truncation reads the digest buffer only (R173). -/
theorem hotpSame_truncate {s s' : State} (h : HotpSame s s') : HotpSame (truncate s) (truncate s') := by
  obtain ⟨hdig, -, hcode⟩ := h
  exact ⟨hdig, ⟨congrArg dtOffset hdig, congrArg dtBinary hdig⟩, hcode⟩

/-- Code extraction reads `TR_BIN` only (R174). -/
theorem hotpSame_writeCode {s s' : State} (h : HotpSame s s') : HotpSame (writeCode s) (writeCode s') := by
  obtain ⟨hdig, ⟨hoff, hbin⟩, -⟩ := h
  exact ⟨hdig, ⟨hoff, hbin⟩, congrArg (fun bin => BitVec.ofNat 20 (codeValue bin)) hbin,
    congrArg (fun bin => codeChars (codeValue bin)) hbin⟩

/-- The characters that code extraction emits depend on `TR_BIN` only (R174). -/
theorem codeBytes_congr {s s' : State} (h : HotpSame s s') :
    (codeChars (codeValue s'.trBin)).toList = (codeChars (codeValue s.trBin)).toList := by
  obtain ⟨-, ⟨-, hbin⟩, -⟩ := h
  rw [hbin]

/-- `B32D.CHAR` reads the decoder's registers only: the flags decide whether the stream runs, and a running one reads
the residual (R143). -/
theorem b32dChar_answersAlike (c : CharCode) {s s' : State} (h : DecSame s s') :
    AnswersAlike .decoder (.b32dChar c) s s' := by
  have ⟨hacc, hn, hstop, herr⟩ := h
  by_cases hend : s.decErr = true ∨ s.decStop = true
  · have hend' : s'.decErr = true ∨ s'.decStop = true := by rwa [herr, hstop]
    exact answersAlike_of_respond (exec_b32dChar_of_ended c hend) (exec_b32dChar_of_ended c hend')
      (decVerdict_congr herr) rfl h
  · obtain ⟨hrun, hrunStop⟩ : s.decErr = false ∧ s.decStop = false := by simpa using hend
    have hrun' : s'.decErr = false := herr.trans hrun
    have hrunStop' : s'.decStop = false := hstop.trans hrunStop
    cases hc : classify c with
    | pad =>
      exact answersAlike_of_respond (exec_b32dChar_pad hrun hrunStop hc) (exec_b32dChar_pad hrun' hrunStop' hc)
        rfl rfl ⟨hacc, hn, rfl, herr⟩
    | invalid =>
      exact answersAlike_of_respond (exec_b32dChar_invalid hrun hrunStop hc)
        (exec_b32dChar_invalid hrun' hrunStop' hc) rfl rfl ⟨hacc, hn, hstop, rfl⟩
    | alphabet v =>
      have hfeed := decFeed_congr h v
      exact answersAlike_of_respond (exec_b32dChar_alphabet hrun hrunStop hc)
        (exec_b32dChar_alphabet hrun' hrunStop' hc) rfl (congrArg (·.1) hfeed)
        ⟨congrArg (·.2.1) hfeed, congrArg (·.2.2) hfeed, hstop, herr⟩

/-- `HT.DIG` reads no register: its index decides, and the buffer elsewhere stays (R172). -/
theorem htDig_answersAlike (idx b : Byte) {s s' : State} (h : HotpSame s s') :
    AnswersAlike .hotp (.htDig idx b) s s' := by
  by_cases hidx : idx.toNat < 20
  · obtain ⟨hdig, htr, hcode⟩ := h
    exact answersAlike_of_respond (dif_pos hidx) (dif_pos hidx) rfl rfl
      ⟨congrArg (fun v : Digest => v.set idx.toNat b) hdig, htr, hcode⟩
  · exact answersAlike_of_respond (dif_neg hidx) (dif_neg hidx) rfl rfl h

/-- An instruction reads the registers of its own unit only (R104). -/
theorem exec_answersAlike (i : Instr) {s s' : State} (h : UnitAgrees i.unit s s') :
    AnswersAlike i.unit i s s' := by
  cases i with
  | nop | be64 n => exact answersAlike_of_respond rfl rfl rfl rfl trivial
  | b32eClr => exact answersAlike_of_respond rfl rfl rfl rfl ⟨rfl, rfl⟩
  | b32eByte b =>
    have hfeed := encFeed_congr h b
    exact answersAlike_of_respond rfl rfl rfl (congrArg (·.1) hfeed)
      ⟨congrArg (·.2.1) hfeed, congrArg (·.2.2) hfeed⟩
  | b32eFin => exact answersAlike_of_respond rfl rfl rfl (congrArg₂ encFlush h.1 h.2) ⟨rfl, rfl⟩
  | b32dClr => exact answersAlike_of_respond rfl rfl rfl rfl ⟨rfl, rfl, rfl, rfl⟩
  | b32dChar c => exact b32dChar_answersAlike c h
  | b32dFin =>
    obtain ⟨-, -, -, herr⟩ := h
    exact answersAlike_of_respond rfl rfl (decVerdict_congr herr) rfl ⟨rfl, rfl, rfl, rfl⟩
  | htDig idx b => exact htDig_answersAlike idx b h
  | htTrunc =>
    exact answersAlike_of_respond rfl rfl rfl (congrArg (fun d => truncBytes (dtBinary d)) h.1) (hotpSame_truncate h)
  | htCode => exact answersAlike_of_respond rfl rfl rfl (codeBytes_congr h) (hotpSame_writeCode h)
  | htHotp =>
    have htrunc := hotpSame_truncate h
    exact answersAlike_of_respond rfl rfl rfl (codeBytes_congr htrunc) (hotpSame_writeCode htrunc)

/-- Settles O52, by `exec_answersAlike` and `unitAgrees_of_exec`. -/
theorem unitsAreIndependent : Obligations.UnitsAreIndependent := by
  intro i s s' h
  obtain ⟨t, t', hx, hx', hrsp, hunit⟩ := exec_answersAlike i h
  exact ⟨t, t', hx, hx', hrsp, hunit, fun _ hk => unitAgrees_of_exec hx hk⟩

end Sys2Proof.Proofs
end

/-! The counter encoder (spec/41_counter.md R110 to R113). Byte `k` of the encoding is the slice that the observation
port's byte view places at the same bits, so the view is the encoding's inverse. -/

section
namespace Sys2Proof.Proofs

open Sys2Proof.Machine

/-! ### One byte of the encoding -/

/-- Byte `k` of the counter is its digit of weight `2 ^ (56 - 8 * k)` (R110). -/
theorem counterByte_toNat (n : Data) (k : Nat) : (counterByte n k).toNat = n.toNat / 2 ^ (56 - 8 * k) % 256 := by
  rw [counterByte, Nat.and_two_pow_sub_one_eq_mod _ 8, BitVec.toNat_ofNat, Nat.mod_mod, Nat.shiftRight_eq_div_pow]

/-- The shift and mask of R110 are the slice it writes. -/
theorem counterByte_eq_extract (n : Data) (k : Nat) : counterByte n k = n.extractLsb' (56 - 8 * k) 8 :=
  BitVec.eq_of_toNat_eq <| by
    rw [counterByte_toNat, BitVec.extractLsb'_toNat, Nat.shiftRight_eq_div_pow]

/-- A byte above the counter's highest bit is 0 (R113 d, e). -/
theorem counterByte_eq_zero {n : Data} {k : Nat} (h : n.toNat < 2 ^ (56 - 8 * k)) : counterByte n k = 0 :=
  BitVec.eq_of_toNat_eq <| by
    rw [counterByte_toNat, Nat.div_eq_of_lt h]
    rfl

/-! ### The eight bytes -/

theorem length_intToBytes (n : Data) : (intToBytes n).length = 8 := rfl

theorem getElem_intToBytes (n : Data) (k : Nat) (hk : k < (intToBytes n).length) :
    (intToBytes n)[k] = n.extractLsb' (56 - 8 * k) 8 := by
  rw [← counterByte_eq_extract]
  rw [length_intToBytes] at hk
  interval_cases k <;> rfl

/-- The counter is the weighted sum of its bytes (R113 b). -/
theorem toNat_eq_sum_counterByte (n : Data) :
    n.toNat = (counterByte n 0).toNat * 2 ^ 56 + (counterByte n 1).toNat * 2 ^ 48 +
      (counterByte n 2).toNat * 2 ^ 40 + (counterByte n 3).toNat * 2 ^ 32 + (counterByte n 4).toNat * 2 ^ 24 +
      (counterByte n 5).toNat * 2 ^ 16 + (counterByte n 6).toNat * 2 ^ 8 + (counterByte n 7).toNat := by
  simp only [counterByte_toNat]
  omega

theorem toNat_of_intToBytes {n : Data} {b0 b1 b2 b3 b4 b5 b6 b7 : Byte}
    (h : intToBytes n = [b0, b1, b2, b3, b4, b5, b6, b7]) :
    n.toNat = b0.toNat * 2 ^ 56 + b1.toNat * 2 ^ 48 + b2.toNat * 2 ^ 40 + b3.toNat * 2 ^ 32 +
      b4.toNat * 2 ^ 24 + b5.toNat * 2 ^ 16 + b6.toNat * 2 ^ 8 + b7.toNat := by
  cases h
  exact toNat_eq_sum_counterByte n

/-- Two counters with the same bytes have the same weighted sum (R113 a, b). -/
theorem intToBytes_injective : Function.Injective intToBytes := fun _ m h =>
  BitVec.eq_of_toNat_eq ((toNat_of_intToBytes h).trans (toNat_eq_sum_counterByte m).symm)

/-- Every 8-byte list is the encoding of its word view (R113 a, R64). -/
theorem intToBytes_placedBytes {l : List Byte} (hl : l.length = 8) : intToBytes (placedBytes 63 l) = l := by
  refine List.ext_getElem hl.symm fun k _ hk => ?_
  rw [getElem_intToBytes]
  exact extract_placedBytes 63 l k hk (by omega) (by decide)

/-- The word view of a counter's bytes is the counter (R113 c, R64). -/
theorem placedBytes_intToBytes (n : Data) : placedBytes 63 (intToBytes n) = n :=
  intToBytes_injective (intToBytes_placedBytes (length_intToBytes n))

/-- Settles O20: (b) gives the injectivity of (a), the port's byte view inverts the encoding for the rest of (a) and
(c), and (d) and (e) are bytes above the counter's highest bit. -/
theorem counterBytesBijection : Obligations.CounterBytesBijection := by
  refine ⟨intToBytes_injective, length_intToBytes, fun l hl => ⟨_, intToBytes_placedBytes hl⟩,
    fun n _ _ _ _ _ _ _ _ => toNat_of_intToBytes, fun n s t ht => ?_, fun n hn => ?_, fun n hn => ?_⟩
  · obtain rfl : respond .ok (intToBytes n) s = t := Host.Outcome.next.inj ht
    exact placedBytes_intToBytes n
  · have hzero {k : Nat} (hk : 32 ≤ 56 - 8 * k) : counterByte n k = 0 :=
      counterByte_eq_zero (hn.trans_le (Nat.pow_le_pow_right (by decide) hk))
    change [counterByte n 0, counterByte n 1, counterByte n 2, counterByte n 3] = _
    rw [hzero (by decide), hzero (by decide), hzero (by decide), hzero (by decide)]
  · exact congrArg (fun b => [b]) (counterByte_eq_zero (k := 0) hn)

/-! ### The command and its operand -/

/-- Settles O19: `BE64` responds with the slices of R110 over the state as it was. -/
theorem be64EmitsBigEndian : Obligations.Be64EmitsBigEndian := by
  intro s n
  refine ⟨respond .ok (intToBytes n) s, rfl, acceptCommand_of_decodeFields (i := .be64 n) rfl s, ?_,
    respond_frame _ _ s⟩
  have hbytes := answers_respond .ok (intToBytes n) s rfl
  simpa only [intToBytes, counterByte_eq_extract] using hbytes

/-- Settles O21: `BitVec.ofInt` takes the non-negative remainder, and it keeps a counter within the signed range. -/
theorem counterWordIsModulo : Obligations.CounterWordIsModulo := by
  refine ⟨fun k => ?_, fun k hlo hneg => ?_⟩
  · rw [counterWord, BitVec.toNat_ofInt]
    exact Int.toNat_of_nonneg (Int.emod_nonneg k (by decide))
  · exact BitVec.toInt_ofInt_eq_self (by decide) hlo (hneg.trans (by decide))

end Sys2Proof.Proofs
end

/-! Single commands of the Base32 codec (spec/42_base32.md R131 to R133, R140, R142 to R144, R150). What a command
leaves as it was is read off the independence of the units; what it answers is the response rule over its own write. -/

section
namespace Sys2Proof.Proofs

open Sys2Proof.Machine

/-! ### What a command of the codec leaves as it was -/

/-- No instruction touches the host's side of the ports. -/
theorem hostSame_of_exec {i : Instr} {s t : State} (h : exec i s = .next t) : HostSame s t := by
  obtain ⟨st, out, u, hu, -, -, hhost⟩ := exec_responds i s
  obtain rfl : respond st out u = t := Host.Outcome.next.inj (hu.symm.trans h)
  exact hhost

/-- An encoder command leaves every register of the other units (R32, R104). -/
theorem frame_of_encoder {i : Instr} {s t : State} (hi : i.unit = .encoder) (h : exec i s = .next t) :
    DecSame s t ∧ HotpSame s t ∧ HostSame s t :=
  ⟨unitAgrees_of_exec (k := .decoder) h (by simp [hi]), unitAgrees_of_exec (k := .hotp) h (by simp [hi]),
    hostSame_of_exec h⟩

/-- A decoder command leaves every register of the other units (R32, R104). -/
theorem frame_of_decoder {i : Instr} {s t : State} (hi : i.unit = .decoder) (h : exec i s = .next t) :
    EncSame s t ∧ HotpSame s t ∧ HostSame s t :=
  ⟨unitAgrees_of_exec (k := .encoder) h (by simp [hi]), unitAgrees_of_exec (k := .hotp) h (by simp [hi]),
    hostSame_of_exec h⟩

/-! ### The encoder's commands -/

/-- Settles O23: the empty OK response over the cleared residual. -/
theorem encoderClear : Obligations.EncoderClear := fun s d =>
  ⟨respond .ok [] (setEnc 0 0 s), rfl, acceptCommand_of_decodeFields (i := .b32eClr) (d := d) rfl s,
    answers_respond .ok [] _ rfl, rfl, rfl, frame_of_encoder (i := .b32eClr) rfl rfl⟩

/-- A number that fits a register is held whole. -/
theorem toNat_ofNat_of_lt_two_pow {width k x : Nat} (hx : x < 2 ^ k) (hk : k ≤ width) :
    (BitVec.ofNat width x).toNat = x :=
  Nat.mod_eq_of_lt (hx.trans_le (Nat.pow_le_pow_right (by decide) hk))

/-- Settles O24, by the count of characters a byte completes: `encFeed_one` and `encFeed_two`. -/
theorem encoderByte : Obligations.EncoderByte := by
  intro s d hn
  have hrun : exec (.b32eByte (fieldB d)) s = .next (respond .ok (encFeed s.encAcc s.encN (fieldB d)).1
      (setEnc (encFeed s.encAcc s.encN (fieldB d)).2.1 (encFeed s.encAcc s.encN (fieldB d)).2.2 s)) := rfl
  refine ⟨_, hrun, acceptCommand_of_decodeFields (i := .b32eByte (fieldB d)) (d := d) rfl s, fun h1 => ?_,
    fun h2 => ?_, frame_of_encoder rfl hrun⟩
  · rw [encFeed_one _ _ _ h1, fieldB_toNat]
    exact ⟨answers_respond .ok [_] _ rfl, toNat_ofNat_of_lt_two_pow (k := 3) (by omega) le_rfl,
      toNat_ofNat_of_lt_two_pow (Nat.mod_lt _ (Nat.two_pow_pos _)) (by omega)⟩
  · rw [encFeed_two _ _ _ h2 hn, fieldB_toNat]
    exact ⟨answers_respond .ok [_, _] _ rfl, toNat_ofNat_of_lt_two_pow (k := 3) (by omega) le_rfl,
      toNat_ofNat_of_lt_two_pow (Nat.mod_lt _ (Nat.two_pow_pos _)) (by omega)⟩

/-- The end of a stream emits one character at most (R133). -/
theorem length_encFlush_le (acc : BitVec 4) (n : BitVec 3) : (encFlush acc n).length ≤ 1 := by
  rw [encFlush]
  split <;> simp

/-- Settles O25: the response is `encFlush_eq`'s, over the cleared residual. -/
theorem encoderFinish : Obligations.EncoderFinish := by
  intro s d _
  have hanswers := answers_respond .ok (encFlush s.encAcc s.encN) (setEnc 0 0 s)
    (decide_eq_true ((length_encFlush_le _ _).trans (by decide)))
  refine ⟨respond .ok (encFlush s.encAcc s.encN) (setEnc 0 0 s), rfl,
    acceptCommand_of_decodeFields (i := .b32eFin) (d := d) rfl s, fun h0 => ?_, fun h0 => ?_, rfl, rfl,
    frame_of_encoder (i := .b32eFin) rfl rfl⟩
  · rwa [encFlush_eq, if_pos h0] at hanswers ⊢
  · rwa [encFlush_eq, if_neg h0] at hanswers ⊢

/-- The character that ends a stream is from the alphabet (R133, R137). -/
theorem encFlush_alphabet (acc : BitVec 4) (n : BitVec 3) : ∀ b ∈ encFlush acc n, ∃ v, b = alpha v := by
  rw [encFlush]
  split
  · exact fun b hb => ⟨_, List.mem_singleton.mp hb⟩
  · exact fun b hb => absurd hb List.not_mem_nil

/-- An encoder command answers OK with at most 8 characters of the alphabet (R137). -/
theorem exec_encoder_responds {i : Instr} (hi : i.unit = .encoder) (s : State) :
    ∃ out u, exec i s = .next (respond .ok out u) ∧ out.length ≤ 8 ∧ ∀ b ∈ out, ∃ v, b = alpha v := by
  cases i with
  | b32eClr => exact ⟨[], _, rfl, by decide, by simp⟩
  | b32eByte b =>
    obtain ⟨hlen, halpha⟩ := encFeed_alphabet s.encAcc s.encN b
    exact ⟨_, _, rfl, hlen.trans (by decide), halpha⟩
  | b32eFin => exact ⟨_, _, rfl, (length_encFlush_le _ _).trans (by decide), encFlush_alphabet _ _⟩
  | _ => cases hi

/-- Settles O26: every emitted byte is `ALPHA` of some value, which the decoder reads back (`classify_alpha`). -/
theorem encoderNeverFails : Obligations.EncoderNeverFails := by
  intro s i hi
  obtain ⟨out, u, hu, hlen, halpha⟩ := exec_encoder_responds hi s
  refine ⟨_, out, hu, answers_respond .ok out u (decide_eq_true hlen), fun b hb => ?_⟩
  obtain ⟨v, rfl⟩ := halpha b hb
  exact ⟨v, classify_alpha v⟩

/-! ### The decoder's character classes -/

/-- The pad is the one character whose code is 0x3D. -/
theorem eq_padChar_iff (c : CharCode) : c = Config.padChar ↔ c.toNat = 0x3D := BitVec.toNat_inj.symm

/-- The invalid codes are those outside the two alphabet ranges and the pad (R140). -/
theorem classify_eq_invalid_iff (c : CharCode) : classify c = .invalid ↔
    ¬(0x41 ≤ c.toNat ∧ c.toNat ≤ 0x5A) ∧ ¬(0x32 ≤ c.toNat ∧ c.toNat ≤ 0x37) ∧ c.toNat ≠ 0x3D := by
  rw [Ne, ← eq_padChar_iff, classify]
  split
  case isTrue hupper => exact iff_of_false nofun fun ⟨hnot, _, _⟩ => hnot hupper
  case isFalse hupper =>
    split
    case isTrue hdigit => exact iff_of_false nofun fun ⟨_, hnot, _⟩ => hnot hdigit
    case isFalse hdigit =>
      split
      case isTrue hpad => exact iff_of_false nofun fun ⟨_, _, hnot⟩ => hnot hpad
      case isFalse hpad => exact iff_of_true rfl ⟨hupper, hdigit, hpad⟩

/-- Settles O29, class by class. -/
theorem characterClasses : Obligations.CharacterClasses := fun c =>
  ⟨classify_eq_alphabet_iff c, (classify_eq_pad_iff c).trans (eq_padChar_iff c), classify_eq_invalid_iff c⟩

/-! ### The decoder's commands -/

/-- Settles O30: the empty OK response over the cleared decoder. -/
theorem decoderClear : Obligations.DecoderClear := fun s d =>
  ⟨respond .ok [] (clearDec s), rfl, acceptCommand_of_decodeFields (i := .b32dClr) (d := d) rfl s,
    answers_respond .ok [] _ rfl, rfl, rfl, rfl, rfl, frame_of_decoder (i := .b32dClr) rfl rfl⟩

/-- A failed stream's verdict (R144). -/
theorem decVerdict_of_err {s : State} (h : s.decErr = true) : decVerdict s = .invalidEncoding := if_pos h

/-- The verdict of a stream that has not failed (R144). -/
theorem decVerdict_of_not_err {s : State} (h : s.decErr = false) : decVerdict s = .ok := by
  simp [decVerdict, h]

/-- Settles O32: the verdict with no bytes, over the cleared decoder. -/
theorem decoderFinish : Obligations.DecoderFinish := by
  intro s d
  have hanswers := answers_respond (decVerdict s) [] (clearDec s) rfl
  exact ⟨respond (decVerdict s) [] (clearDec s), rfl,
    acceptCommand_of_decodeFields (i := .b32dFin) (d := d) rfl s, fun h => decVerdict_of_err h ▸ hanswers,
    fun h => decVerdict_of_not_err h ▸ hanswers, rfl, rfl, rfl, rfl, frame_of_decoder (i := .b32dFin) rfl rfl⟩

/-- What an alphabet character makes of a running stream (R143, with its table R147). -/
theorem exec_b32dChar_alphabet_spec {c : CharCode} {s t : State} {v : BitVec 5} (herr : s.decErr = false)
    (hstop : s.decStop = false) (hc : classify c = .alphabet v) (h : exec (.b32dChar c) s = .next t) :
    t.decStop = false ∧ t.decErr = false ∧
    (s.decN.toNat ≤ 2 → Answers t .ok [] ∧ t.decN.toNat = s.decN.toNat + 5 ∧
      t.decAcc.toNat = (s.decAcc.toNat * 32 + v.toNat) % 2 ^ (s.decN.toNat + 5)) ∧
    (3 ≤ s.decN.toNat →
      Answers t .ok [BitVec.ofNat 8 ((s.decAcc.toNat * 32 + v.toNat) / 2 ^ (s.decN.toNat - 3))] ∧
      t.decN.toNat = s.decN.toNat - 3 ∧
      t.decAcc.toNat = (s.decAcc.toNat * 32 + v.toNat) % 2 ^ (s.decN.toNat - 3)) := by
  obtain rfl := Host.Outcome.next.inj ((exec_b32dChar_alphabet herr hstop hc).symm.trans h)
  have hn : s.decN.toNat < 8 := s.decN.isLt
  refine ⟨hstop, herr, fun h2 => ?_, fun h3 => ?_⟩
  · rw [decFeed_none _ _ v h2]
    exact ⟨answers_respond .ok [] _ rfl, toNat_ofNat_of_lt_two_pow (k := 3) (by omega) le_rfl,
      toNat_ofNat_of_lt_two_pow (Nat.mod_lt _ (Nat.two_pow_pos _)) (by omega)⟩
  · rw [decFeed_one _ _ v h3]
    exact ⟨answers_respond .ok [_] _ rfl, toNat_ofNat_of_lt_two_pow (k := 3) (by omega) le_rfl,
      toNat_ofNat_of_lt_two_pow (Nat.mod_lt _ (Nat.two_pow_pos _)) (by omega)⟩

/-- Settles O31, condition by condition: each has its equation for `B32D.CHAR`. -/
theorem decoderCharacter : Obligations.DecoderCharacter := by
  intro s d
  obtain ⟨st, out, u, hrun, -⟩ := exec_responds (.b32dChar (fieldC d)) s
  have hnext {v : State} (h : exec (.b32dChar (fieldC d)) s = .next v) : v = respond st out u :=
    Host.Outcome.next.inj (h.symm.trans hrun)
  refine ⟨_, hrun, (acceptCommand_of_decodeFields (i := .b32dChar (fieldC d)) rfl s).trans hrun, fun herr => ?_,
    fun herr hstop => ?_, fun herr hstop hc => ?_, fun v herr hstop hc => ?_, fun herr hstop hc => ?_,
    frame_of_decoder rfl hrun⟩
  · rw [← hnext (exec_b32dChar_of_ended _ (.inl herr)), decVerdict_of_err herr]
    exact ⟨answers_respond _ [] s rfl, rfl, rfl, rfl, rfl⟩
  · rw [← hnext (exec_b32dChar_of_ended _ (.inr hstop)), decVerdict_of_not_err herr]
    exact ⟨answers_respond _ [] s rfl, rfl, rfl, rfl, rfl⟩
  · rw [← hnext (exec_b32dChar_pad herr hstop hc)]
    exact ⟨answers_respond _ [] _ rfl, rfl, rfl, rfl, herr⟩
  · exact exec_b32dChar_alphabet_spec herr hstop hc hrun
  · rw [← hnext (exec_b32dChar_invalid herr hstop hc)]
    exact ⟨answers_respond _ [] _ rfl, rfl, rfl, rfl, hstop⟩

/-! ### A failed stream stays failed -/

/-- A word given by its opcode runs what the decoder reads from its `DATA` (R80, R100). -/
theorem acceptCommand_of_opOf {w : CommandWord} {op : BitVec 8} {i : Instr} (hop : opOf w = op)
    (h : decodeFields op (dataOf w) = .ok i) (s : State) : acceptCommand w s = exec i s :=
  acceptCommand_of_decode (by rw [decode, hop, h]) s

/-- A character is answered with INVALID_ENCODING only in a stream that has failed, now or before (R143, R150). -/
theorem decErr_of_exec_b32dChar {c : CharCode} {s t : State} (h : exec (.b32dChar c) s = .next t)
    (hst : t.rspSt = .invalidEncoding) : t.decErr = true := by
  have hnext {v : State} (hv : exec (.b32dChar c) s = .next v) : v = t := Host.Outcome.next.inj (hv.symm.trans h)
  by_cases herr : s.decErr = true
  · exact hnext (exec_b32dChar_of_ended c (.inl herr)) ▸ herr
  have herr' : s.decErr = false := Bool.eq_false_iff.mpr herr
  by_cases hstop : s.decStop = true
  · obtain rfl := hnext (exec_b32dChar_of_ended c (.inr hstop))
    rw [respond_rspSt, decVerdict_of_not_err herr'] at hst
    cases hst
  have hstop' : s.decStop = false := Bool.eq_false_iff.mpr hstop
  cases hc : classify c with
  | pad => cases hnext (exec_b32dChar_pad herr' hstop' hc) ▸ hst
  | alphabet v => cases hnext (exec_b32dChar_alphabet herr' hstop' hc) ▸ hst
  | invalid => exact hnext (exec_b32dChar_invalid herr' hstop' hc) ▸ rfl

/-- While a stream has failed, a word that is neither `B32D.CLR` nor `B32D.FIN` changes no register of the decoder: a
character because the stream has ended, any other by the written-by column (R32, R150). -/
theorem acceptCommand_of_err {s : State} {w : CommandWord} (herr : s.decErr = true) (hclr : opOf w ≠ 0x20)
    (hfin : opOf w ≠ 0x22) :
    ∃ t, acceptCommand w s = .next t ∧ DecSame s t ∧
      (opOf w = 0x21 → Answers t .invalidEncoding [] ∧ UnitsSame s t) := by
  by_cases hop : opOf w = 0x21
  · refine ⟨respond .invalidEncoding [] s, ?_, ⟨rfl, rfl, rfl, rfl⟩, fun _ => respond_nil_spec _ s⟩
    rw [acceptCommand_of_opOf (i := .b32dChar (fieldC (dataOf w))) hop rfl, exec_b32dChar_of_ended _ (.inl herr),
      decVerdict_of_err herr]
  · obtain ⟨st, out, u, hu, -⟩ := acceptCommand_responds w s
    obtain ⟨-, hdec, -⟩ := onlyListedCommandsWrite s _ w hu
    exact ⟨_, hu, hdec (by simpa using ⟨hclr, hop, hfin⟩), fun h => absurd h hop⟩

/-- Settles O40: set by `decErr_of_exec_b32dChar`, kept by `acceptCommand_of_err`, and cleared with the whole decoder
by `B32D.CLR`, `B32D.FIN` and `RST`. -/
theorem decoderErrorIsSticky : Obligations.DecoderErrorIsSticky := by
  refine ⟨fun s t w hop h => ?_, fun s w => acceptCommand_of_err, fun s w hop => ?_, fun s rest hp => ?_⟩
  · rw [acceptCommand_of_opOf (i := .b32dChar (fieldC (dataOf w))) hop rfl] at h
    exact decErr_of_exec_b32dChar h
  · obtain hop | hop := hop
    · exact ⟨_, acceptCommand_of_opOf (i := .b32dClr) hop rfl s, rfl⟩
    · exact ⟨_, acceptCommand_of_opOf (i := .b32dFin) hop rfl s, rfl⟩
  · exact ⟨_, step_of_cons hp, rfl⟩

end Sys2Proof.Proofs
end

/-! The whole functions of the Base32 codec (spec/42_base32.md R130, R141): the length of an encoding, what a string
decodes to, and the round trip. A character of the alphabet stands for five bits; `encodeBase32` writes the bits of
its bytes as such groups, and `decodeBase32` reads the groups before the first pad back into whole bytes. -/

section
namespace Sys2Proof.Proofs

open Sys2Proof.Machine

/-! ### Bits of bytes and of groups -/

/-- The five bits of an alphabet value, most significant first (R141). -/
def groupBits (v : BitVec 5) : List Bool :=
  [v.getLsbD 4, v.getLsbD 3, v.getLsbD 2, v.getLsbD 1, v.getLsbD 0]

theorem length_groupBits (v : BitVec 5) : (groupBits v).length = 5 := rfl

theorem bitsValue_groupBits (v : BitVec 5) : bitsValue (groupBits v) = v.toNat := by
  revert v
  decide

/-- The number of a bit string's first part is the quotient, that of the second the remainder. -/
theorem bitsValue_append_div_mod (xs ys : List Bool) :
    bitsValue (xs ++ ys) / 2 ^ ys.length = bitsValue xs ∧ bitsValue (xs ++ ys) % 2 ^ ys.length = bitsValue ys := by
  rw [Nat.div_mod_unique (Nat.two_pow_pos _), bitsValue_append]
  exact ⟨by ring, bitsValue_lt ys⟩

/-- A bit string is what its length and its number say. -/
theorem bitsValue_inj {xs ys : List Bool} (hlen : xs.length = ys.length) (h : bitsValue xs = bitsValue ys) :
    xs = ys := by
  induction xs generalizing ys with
  | nil => exact (List.length_eq_zero_iff.mp hlen.symm).symm
  | cons x xs ih =>
    cases ys with
    | nil => cases hlen
    | cons y ys =>
      have hlen' : xs.length = ys.length := Nat.succ.inj hlen
      obtain ⟨hx, hxs⟩ := bitsValue_append_div_mod [x] xs
      obtain ⟨hy, hys⟩ := bitsValue_append_div_mod [y] ys
      rw [List.singleton_append, h, hlen'] at hx hxs
      have hbit : bitsValue [x] = bitsValue [y] := hx.symm.trans hy
      rw [ih hlen' (hxs.symm.trans hys), (by revert hbit; cases x <;> cases y <;> decide : x = y)]

/-- Eight bits are the bits of the byte they make. -/
theorem bitsOf_bitsValue {g : List Bool} (hg : g.length = 8) : bitsOf (BitVec.ofNat 8 (bitsValue g)) = g :=
  bitsValue_inj hg.symm <| (bitsValue_bitsOf _).trans (Nat.mod_eq_of_lt (hg ▸ bitsValue_lt g))

/-- Five bits are the bits of the group they make. -/
theorem groupBits_bitsValue {g : List Bool} (hg : g.length = 5) : groupBits (BitVec.ofNat 5 (bitsValue g)) = g :=
  bitsValue_inj hg.symm <| (bitsValue_groupBits _).trans (Nat.mod_eq_of_lt (hg ▸ bitsValue_lt g))

theorem length_bitString (bs : List Byte) : (bitString bs).length = 8 * bs.length := by
  rw [bitString, List.length_flatMap]
  simp [length_bitsOf, Nat.mul_comm]

theorem bitsOf_injective : Function.Injective bitsOf := fun a b h =>
  BitVec.eq_of_toNat_eq (by rw [← bitsValue_bitsOf, h, bitsValue_bitsOf])

/-- Byte lists with the same bits are the same (R14). -/
theorem bitString_injective : Function.Injective bitString := by
  intro xs
  induction xs with
  | nil =>
    intro ys h
    cases ys with
    | nil => rfl
    | cons y ys => cases h
  | cons x xs ih =>
    intro ys h
    cases ys with
    | nil => cases h
    | cons y ys =>
      obtain ⟨hxy, hrest⟩ := List.append_inj (h : bitsOf x ++ bitString xs = bitsOf y ++ bitString ys) rfl
      rw [bitsOf_injective hxy, ih hrest]

/-! ### The length of an encoding -/

/-- The number of characters is `G` of R130. -/
theorem length_encodeBase32 (bs : List Byte) : (encodeBase32 bs).length = (8 * bs.length + 4) / 5 := by
  rw [encodeBase32_eq, encodeBits, List.length_map, List.length_range, ceilDiv5, length_bitString]

/-- Settles O28: the three clauses are `length_encodeBase32` in its two forms, and at 0. -/
theorem encoderLength : Obligations.EncoderLength := by
  refine ⟨length_encodeBase32, fun bs q r hr hlen => ?_, rfl⟩
  rw [length_encodeBase32, hlen]
  interval_cases r <;> simp only [List.getD_cons_zero, List.getD_cons_succ] <;> omega

/-! ### The groups of an encoding -/

/-- The groups of five bits of a list, one after the other, are the list's front. -/
theorem flatMap_groups (bits : List Bool) (k : Nat) :
    ((List.range k).flatMap fun j => (bits.drop (5 * j)).take 5) = bits.take (5 * k) := by
  induction k with
  | zero => rfl
  | succ k ih => rw [List.range_succ, List.flatMap_append, ih, List.flatMap_singleton, Nat.mul_succ, List.take_add]

/-- A bit string zero-filled to whole groups, `B'` of R130. -/
def filledBits (bits : List Bool) : List Bool :=
  bits ++ List.replicate (5 * ceilDiv5 bits.length - bits.length) false

theorem length_filledBits (bits : List Bool) : (filledBits bits).length = 5 * ceilDiv5 bits.length := by
  simp only [filledBits, ceilDiv5, List.length_append, List.length_replicate]
  omega

/-- The characters of a bit string are those of values whose bits are the zero-filled string's (R130). -/
theorem encodeBits_groups (bits : List Bool) : ∃ vs : List (BitVec 5),
    encodeBits bits = vs.map alpha ∧ vs.flatMap groupBits = filledBits bits := by
  refine ⟨(List.range (ceilDiv5 bits.length)).map fun j =>
    BitVec.ofNat 5 (bitsValue (((filledBits bits).drop (5 * j)).take 5)), by rw [List.map_map]; rfl, ?_⟩
  have hgroup (j : Nat) (hj : j ∈ List.range (ceilDiv5 bits.length)) :
      groupBits (BitVec.ofNat 5 (bitsValue (((filledBits bits).drop (5 * j)).take 5))) =
        ((filledBits bits).drop (5 * j)).take 5 := by
    have := List.mem_range.mp hj
    exact groupBits_bitsValue (by rw [List.length_take, List.length_drop, length_filledBits]; omega)
  rw [List.flatMap_map, List.flatMap_congr hgroup, flatMap_groups, ← length_filledBits, List.take_length]

/-! ### Decoding characters of the alphabet -/

/-- The character the decoder reads for an alphabet value (R10, R11). -/
def codeOf (v : BitVec 5) : CharCode := charOfByte (alpha v)

theorem classify_codeOf (v : BitVec 5) : classify (codeOf v) = .alphabet v := classify_alpha v

/-- The loop of R141 on characters of the alphabet: with the bits `held` in its variables it goes on to decode the
whole bytes of `held` and the characters' bits, and discards the bits behind them. -/
theorem decodeLoop_codes (vs : List (BitVec 5)) (held : List Bool) (hheld : held.length < 8) (out : List Byte) :
    ∃ new, decodeLoop (vs.map codeOf) (bitsValue held) held.length out = .ok (out ++ new) ∧
      bitString new = (held ++ vs.flatMap groupBits).take (8 * ((held.length + 5 * vs.length) / 8)) := by
  induction vs generalizing held out with
  | nil => exact ⟨[], by simp [decodeLoop], by simp [bitString, Nat.div_eq_of_lt hheld]⟩
  | cons v vs ih =>
    have hword : bitsValue held <<< 5 ||| v.toNat = bitsValue (held ++ groupBits v) := by
      rw [dec_word, bitsValue_append, bitsValue_groupBits]
      rfl
    have hlen : (held ++ groupBits v).length = held.length + 5 := by rw [List.length_append, length_groupBits]
    have hbits : held ++ (v :: vs).flatMap groupBits = held ++ groupBits v ++ vs.flatMap groupBits := by
      rw [List.flatMap_cons, List.append_assoc]
    simp only [List.map_cons, decodeLoop, classify_codeOf, hword]
    split
    case isFalse hfew =>
      obtain ⟨new, hrun, hnew⟩ := ih (held ++ groupBits v) (by omega) out
      rw [hlen] at hrun hnew
      refine ⟨new, hrun, ?_⟩
      rw [hnew, hbits, List.length_cons]
      congr 3
      omega
    case isTrue hbyte =>
      obtain ⟨byte, rest, hbyteLen, hsplit⟩ : ∃ byte rest,
          byte.length = 8 ∧ held ++ groupBits v = byte ++ rest :=
        ⟨_, _, List.length_take_of_le (by omega), (List.take_append_drop 8 _).symm⟩
      have hrest : held.length - 3 = rest.length := by
        have := congrArg List.length hsplit
        rw [hlen, List.length_append, hbyteLen] at this
        omega
      obtain ⟨hdiv, hmod⟩ := bitsValue_append_div_mod byte rest
      have hmask : bitsValue byte &&& 0xFF = bitsValue byte := by
        rw [Nat.and_two_pow_sub_one_eq_mod _ 8, Nat.mod_eq_of_lt (hbyteLen ▸ bitsValue_lt byte)]
      rw [hsplit, hrest, and_maskBits, Nat.shiftRight_eq_div_pow, hdiv, hmod, hmask]
      obtain ⟨new, hrun, hnew⟩ := ih rest (by omega) (out ++ [BitVec.ofNat 8 (bitsValue byte)])
      refine ⟨BitVec.ofNat 8 (bitsValue byte) :: new, by rw [hrun, List.append_assoc, List.singleton_append], ?_⟩
      have htake : 8 * ((held.length + 5 * (v :: vs).length) / 8) =
          byte.length + 8 * ((rest.length + 5 * vs.length) / 8) := by
        rw [List.length_cons]
        omega
      rw [bitString, List.flatMap_cons, bitsOf_bitsValue hbyteLen, hbits, hsplit, htake, List.append_assoc,
        List.take_length_add_append, ← hnew, bitString]

/-- Characters of the alphabet decode to the whole bytes of their bits (R141, R148). -/
theorem decodeBase32_codes (vs : List (BitVec 5)) : ∃ out, decodeBase32 (vs.map codeOf) = .ok out ∧
    bitString out = (vs.flatMap groupBits).take (8 * (5 * vs.length / 8)) := by
  obtain ⟨out, hrun, hout⟩ := decodeLoop_codes vs [] (by decide) []
  exact ⟨out, hrun, by simpa using hout⟩

/-- Settles O39: the law is `decodeBase32_codes`, and the four strings are evaluated. -/
theorem nonCanonicalInputDecodes : Obligations.NonCanonicalInputDecodes :=
  ⟨decodeBase32_codes, by decide, by decide, by decide, by decide⟩

/-! ### Decoding any string -/

/-- The characters of a string before its first pad. -/
def beforePad (cs : List CharCode) : List CharCode := cs.takeWhile fun c => classify c != .pad

theorem beforePad_cons_pad {c : CharCode} (hc : classify c = .pad) (cs : List CharCode) :
    beforePad (c :: cs) = [] := by simp [beforePad, hc]

theorem beforePad_cons_of_ne_pad {c : CharCode} (hc : classify c ≠ .pad) (cs : List CharCode) :
    beforePad (c :: cs) = c :: beforePad cs := by simp [beforePad, hc]

/-- What stands before the first pad is no pad. -/
theorem classify_ne_pad_of_mem_beforePad {cs : List CharCode} {c : CharCode} (h : c ∈ beforePad cs) :
    classify c ≠ .pad := by
  simpa using List.mem_takeWhile_imp (p := fun c => classify c != .pad) h

/-- The loop of R141 reads the characters before the first pad only. -/
theorem decodeLoop_beforePad (cs : List CharCode) (acc n : Nat) (out : List Byte) :
    decodeLoop (beforePad cs) acc n out = decodeLoop cs acc n out := by
  induction cs generalizing acc n out with
  | nil => rfl
  | cons c cs ih =>
    cases hc : classify c with
    | pad => simp only [beforePad_cons_pad hc, decodeLoop, hc]
    | invalid => simp only [beforePad_cons_of_ne_pad (c := c) (by simp [hc]), decodeLoop, hc]
    | alphabet v => simp only [beforePad_cons_of_ne_pad (c := c) (by simp [hc]), decodeLoop, hc, ih]

theorem decodeBase32_beforePad (cs : List CharCode) : decodeBase32 (beforePad cs) = decodeBase32 cs :=
  decodeLoop_beforePad cs 0 0 []

/-- A pad and all that follows it stand behind the characters before the first pad. -/
theorem beforePad_append_pad (cs rest : List CharCode) : beforePad (cs ++ 0x3D :: rest) = beforePad cs := by
  induction cs with
  | nil => exact beforePad_cons_pad classify_pad rest
  | cons c cs ih =>
    by_cases hc : classify c = .pad
    · rw [List.cons_append, beforePad_cons_pad hc, beforePad_cons_pad hc]
    · rw [List.cons_append, beforePad_cons_of_ne_pad hc, beforePad_cons_of_ne_pad hc, ih]

/-- A pad and all that follows it change no decoding (R149). -/
theorem decodeBase32_append_pad (cs rest : List CharCode) :
    decodeBase32 (cs ++ 0x3D :: rest) = decodeBase32 cs := by
  rw [← decodeBase32_beforePad, beforePad_append_pad, decodeBase32_beforePad]

/-- Neither does any number of pads at the end (R154). -/
theorem decodeBase32_append_pads (cs : List CharCode) (p : Nat) :
    decodeBase32 (cs ++ List.replicate p 0x3D) = decodeBase32 cs := by
  cases p with
  | zero => rw [List.replicate_zero, List.append_nil]
  | succ p => exact decodeBase32_append_pad cs _

/-- Settles O37, by `decodeBase32_append_pads` and `decodeBase32_append_pad`. -/
theorem nothingAfterPadCounts : Obligations.NothingAfterPadCounts :=
  ⟨decodeBase32_append_pads, decodeBase32_append_pad⟩

/-- The loop of R141 fails at an invalid character that it reaches. -/
theorem decodeLoop_of_invalid {c : CharCode} (hc : classify c = .invalid) (rest : List CharCode)
    {pre : List CharCode} (hpre : ∀ b ∈ pre, classify b ≠ .pad) (acc n : Nat) (out : List Byte) :
    decodeLoop (pre ++ c :: rest) acc n out = .error .invalidEncoding := by
  induction pre generalizing acc n out with
  | nil => simp only [List.nil_append, decodeLoop, hc]
  | cons b pre ih =>
    obtain ⟨hb, hpre⟩ := List.forall_mem_cons.mp hpre
    cases hclass : classify b with
    | pad => exact absurd hclass hb
    | invalid => simp only [List.cons_append, decodeLoop, hclass]
    | alphabet v => simp only [List.cons_append, decodeLoop, hclass, ih hpre, ite_self]

/-- Settles O38: the listed codes lie outside the ranges of R140, and a string fails at an invalid code that no pad
precedes. -/
theorem strictAlphabet : Obligations.StrictAlphabet := by
  intro c h
  have hc : classify c = .invalid := by
    rw [classify_eq_invalid_iff]
    simp only [List.mem_cons, List.not_mem_nil, or_false] at h
    omega
  exact ⟨hc, fun _ rest hpre => decodeLoop_of_invalid hc rest hpre 0 0 []⟩

/-- Characters that are neither pads nor invalid are characters of alphabet values. -/
theorem exists_codes {cs : List CharCode} (hpad : ∀ c ∈ cs, classify c ≠ .pad)
    (hinvalid : ∀ c ∈ cs, classify c ≠ .invalid) : ∃ vs : List (BitVec 5), vs.map codeOf = cs := by
  have hrange : ∀ c ∈ cs, c ∈ Set.range codeOf := fun c hmem => by
    cases hc : classify c with
    | pad => exact absurd hc (hpad c hmem)
    | invalid => exact absurd hc (hinvalid c hmem)
    | alphabet v => exact ⟨v, charOfByte_alpha_of_classify hc⟩
  rwa [← Set.mem_range, Set.range_list_map]

/-- A string without an invalid character before its first pad decodes as values of the alphabet do. -/
theorem decodeBase32_of_valid {cs : List CharCode} (h : ∀ c ∈ beforePad cs, classify c ≠ .invalid) :
    ∃ (vs : List (BitVec 5)) (out : List Byte), vs.map codeOf = beforePad cs ∧ decodeBase32 cs = .ok out ∧
      bitString out = (vs.flatMap groupBits).take (8 * (5 * vs.length / 8)) := by
  obtain ⟨vs, hvs⟩ := exists_codes (fun _ => classify_ne_pad_of_mem_beforePad) h
  obtain ⟨out, hrun, hout⟩ := decodeBase32_codes vs
  exact ⟨vs, out, hvs, by rw [← decodeBase32_beforePad, ← hvs, hrun], hout⟩

/-- Only strings without one decode (R152). -/
theorem valid_of_decodeBase32 {cs : List CharCode} {out : List Byte} (h : decodeBase32 cs = .ok out) :
    ∀ c ∈ beforePad cs, classify c ≠ .invalid := by
  intro c hmem hc
  obtain ⟨pre, rest, hsplit⟩ := List.append_of_mem hmem
  have hpre : ∀ b ∈ pre, classify b ≠ .pad := fun b hb =>
    classify_ne_pad_of_mem_beforePad (cs := cs) (hsplit ▸ List.mem_append_left _ hb)
  have hfail : decodeBase32 (beforePad cs) = .error .invalidEncoding :=
    hsplit ▸ decodeLoop_of_invalid hc rest hpre 0 0 []
  rw [decodeBase32_beforePad, h] at hfail
  cases hfail

/-- Settles O35, by `valid_of_decodeBase32` and `decodeBase32_of_valid`. -/
theorem decodeFailsOnlyOnInvalid : Obligations.DecodeFailsOnlyOnInvalid := by
  refine fun cs => ⟨fun ⟨_, h⟩ => valid_of_decodeBase32 h, fun h => ?_⟩
  obtain ⟨-, out, -, hout, -⟩ := decodeBase32_of_valid h
  exact ⟨out, hout⟩

/-- Settles O34: the bits of the bytes are as many as the whole bytes of the characters' bits. -/
theorem decoderLength : Obligations.DecoderLength := by
  intro cs out h
  obtain ⟨vs, out', hvs, hout', hbits⟩ := decodeBase32_of_valid (valid_of_decodeBase32 h)
  obtain rfl : out' = out := Except.ok.inj (hout'.symm.trans h)
  have hlen := congrArg List.length hbits
  have hgroups : (vs.flatMap groupBits).length = 5 * vs.length := by
    rw [List.length_flatMap]
    simp [length_groupBits, Nat.mul_comm]
  rw [length_bitString, List.length_take, hgroups] at hlen
  change out'.length = 5 * (beforePad cs).length / 8
  rw [← hvs, List.length_map]
  omega

/-! ### The round trip -/

/-- Settles O36: the encoding's characters hold the bits of the bytes and fewer than five zeros behind them, so the
whole bytes they decode to are the bytes. -/
theorem base32RoundTrip : Obligations.Base32RoundTrip := by
  intro bs p
  obtain ⟨vs, hencode, hbits⟩ := encodeBits_groups (bitString bs)
  obtain ⟨out, hrun, hout⟩ := decodeBase32_codes vs
  rw [← encodeBase32_eq] at hencode
  have hcodes : (encodeBase32 bs).map charOfByte = vs.map codeOf := by rw [hencode, List.map_map]; rfl
  have hlen : vs.length = (8 * bs.length + 4) / 5 := by rw [← length_encodeBase32, hencode, List.length_map]
  have hwhole : 8 * (5 * vs.length / 8) = (bitString bs).length := by rw [length_bitString]; omega
  rw [hbits, hwhole, filledBits, List.take_left] at hout
  rw [decodeBase32_append_pads, hcodes, hrun, bitString_injective hout]

end Sys2Proof.Proofs
end

/-! Streams of the codec (spec/42_base32.md R134, R145) with commands of other units anywhere between their commands.
The other commands neither read nor write the stream's unit (R104), so the stream's responses are those it has on its
own. -/

section
namespace Sys2Proof.Proofs

open Sys2Proof.Machine

/-! ### Interleaved commands -/

/-- After the first reset a list of commands is its first command, then the rest. -/
theorem issueAll_cons_of_exec {i : Instr} {s t : State} (hr : s.rstSeen = true) (hx : exec i s = .next t)
    (is : List Instr) :
    issueAll (i :: is) s = andThen (issueAll is t) fun r => .next (responseOf t :: r.1, r.2) := by
  rw [issueAll, issue_eq_exec i hr, hx, andThen_next]

/-- After the first reset a list of commands runs to its end. -/
theorem issueAll_answers (is : List Instr) {s : State} (hr : s.rstSeen = true) :
    ∃ rs t, issueAll is s = .next (rs, t) ∧ t.rstSeen = true := by
  induction is generalizing s with
  | nil => exact ⟨[], s, rfl, hr⟩
  | cons i is ih =>
    obtain ⟨t, hi, -, -, hrst⟩ := issue_of_rstSeen i s hr
    obtain ⟨rs, u, hrun, hru⟩ := ih (hrst.trans hr)
    exact ⟨_, u, by rw [issueAll, hi, andThen_next, hrun, andThen_next], hru⟩

/-- The last command of a list answers last. -/
theorem issueAll_append_singleton {is : List Instr} {i : Instr} {s t u : State} {rs : List Response}
    (hrun : issueAll is s = .next (rs, t)) (hr : t.rstSeen = true) (hx : exec i t = .next u) :
    issueAll (is ++ [i]) s = .next (rs ++ [responseOf u], u) := by
  rw [issueAll_append, hrun, andThen_next, issueAll_cons_of_exec hr hx]
  rfl

theorem unitAgrees_refl (k : BlockUnit) (s : State) : UnitAgrees k s s := by
  cases k with
  | system | counter => exact trivial
  | encoder => exact ⟨rfl, rfl⟩
  | decoder => exact ⟨rfl, rfl, rfl, rfl⟩
  | hotp => exact ⟨rfl, ⟨rfl, rfl⟩, rfl, rfl⟩

/-- Agreement on a unit's registers carries over. -/
theorem unitAgrees_trans {k : BlockUnit} {s t u : State} (hst : UnitAgrees k s t) (htu : UnitAgrees k t u) :
    UnitAgrees k s u := by
  cases k with
  | system | counter => exact trivial
  | encoder => exact ⟨htu.1.trans hst.1, htu.2.trans hst.2⟩
  | decoder =>
    obtain ⟨hacc, hn, hstop, herr⟩ := hst
    obtain ⟨hacc', hn', hstop', herr'⟩ := htu
    exact ⟨hacc'.trans hacc, hn'.trans hn, hstop'.trans hstop, herr'.trans herr⟩
  | hotp =>
    obtain ⟨hdig, ⟨hoff, hbin⟩, hval, hchr⟩ := hst
    obtain ⟨hdig', ⟨hoff', hbin'⟩, hval', hchr'⟩ := htu
    exact ⟨hdig'.trans hdig, ⟨hoff'.trans hoff, hbin'.trans hbin⟩, hval'.trans hval, hchr'.trans hchr⟩

/-- The host reads the response registers only. -/
theorem responseOf_congr {s t : State} (h : RspSame s t) : responseOf t = responseOf s := by
  obtain ⟨hst, hcnt, hdat⟩ := h
  rw [responseOf, hst, hcnt, hdat, responseOf]

theorem responsesOf_cons_of_unit {k : BlockUnit} {i : Instr} (hi : i.unit = k) (is : List Instr) (r : Response)
    (rs : List Response) : responsesOf k (i :: is) (r :: rs) = r :: responsesOf k is rs := by
  simp [responsesOf, hi]

theorem responsesOf_cons_of_ne_unit {k : BlockUnit} {i : Instr} (hi : i.unit ≠ k) (is : List Instr) (r : Response)
    (rs : List Response) : responsesOf k (i :: is) (r :: rs) = responsesOf k is rs := by
  simp [responsesOf, hi]

/-- A unit's commands have the responses among other commands that they have on their own, and leave the unit's
registers alike (R104). -/
theorem issueAll_filter_unit (k : BlockUnit) (is : List Instr) {s s' : State} (hr : s.rstSeen = true)
    (hr' : s'.rstSeen = true) (h : UnitAgrees k s' s) :
    ∃ rs t t', issueAll is s = .next (rs, t) ∧
      issueAll (is.filter fun i => i.unit == k) s' = .next (responsesOf k is rs, t') ∧ UnitAgrees k t' t := by
  induction is generalizing s s' with
  | nil => exact ⟨[], s, s', rfl, rfl, h⟩
  | cons i is ih =>
    by_cases hi : i.unit = k
    · subst hi
      obtain ⟨u', u, hx', hx, hrsp, hunit⟩ := exec_answersAlike i h
      obtain ⟨-, -, hru⟩ := hostSame_of_exec hx
      obtain ⟨-, -, hru'⟩ := hostSame_of_exec hx'
      obtain ⟨rs, t, t', hrun, hrun', hag⟩ := ih (hru.trans hr) (hru'.trans hr') hunit
      refine ⟨responseOf u :: rs, t, t', by rw [issueAll_cons_of_exec hr hx, hrun, andThen_next], ?_, hag⟩
      have hkeep : ((i :: is).filter fun j => j.unit == i.unit) = i :: is.filter fun j => j.unit == i.unit :=
        List.filter_cons_of_pos (beq_self_eq_true i.unit)
      rw [hkeep, issueAll_cons_of_exec hr' hx', hrun', andThen_next,
        responsesOf_cons_of_unit rfl, responseOf_congr hrsp]
    · obtain ⟨st, out, u, hx, -⟩ := exec_responds i s
      obtain ⟨-, -, hru⟩ := hostSame_of_exec hx
      have hunit := unitAgrees_trans h (unitAgrees_of_exec hx (Ne.symm hi))
      obtain ⟨rs, t, t', hrun, hrun', hag⟩ := ih (hru.trans hr) hr' hunit
      refine ⟨_ :: rs, t, t', by rw [issueAll_cons_of_exec hr hx, hrun, andThen_next], ?_, hag⟩
      rw [List.filter_cons_of_neg (by simpa using hi), hrun', responsesOf_cons_of_ne_unit hi]

/-- So the unit's commands, run on their own, tell the responses among the others and the unit's registers behind. -/
theorem issueAll_of_filter_unit {k : BlockUnit} {is : List Instr} {s t' : State} {rs' : List Response}
    (hr : s.rstSeen = true) (h : issueAll (is.filter fun i => i.unit == k) s = .next (rs', t')) :
    ∃ rs t, issueAll is s = .next (rs, t) ∧ responsesOf k is rs = rs' ∧ UnitAgrees k t' t := by
  obtain ⟨rs, t, u, hrun, hrun', hag⟩ := issueAll_filter_unit k is hr hr (unitAgrees_refl k s)
  obtain ⟨rfl, rfl⟩ := Prod.mk.inj (Host.Outcome.next.inj (h.symm.trans hrun'))
  exact ⟨rs, t, hrun, rfl, hag⟩

/-! ### The encoder stream law -/

/-- With no residual bits counted, the encoder reads nothing of `ENC_ACC` (R132). -/
theorem encFeed_of_empty (acc : BitVec 4) (b : Byte) : encFeed acc 0 b = encFeed 0 0 b := by
  rw [encFeed_one acc 0 b (by decide), encFeed_one 0 0 b (by decide)]
  have hchar : BitVec.ofNat 5 ((acc.toNat * 256 + b.toNat) / 2 ^ 3) = BitVec.ofNat 5 ((0 * 256 + b.toNat) / 2 ^ 3) :=
    BitVec.eq_of_toNat_eq (by rw [BitVec.toNat_ofNat, BitVec.toNat_ofNat]; omega)
  have hrest : (acc.toNat * 256 + b.toNat) % 2 ^ 3 = (0 * 256 + b.toNat) % 2 ^ 3 := by omega
  exact congrArg₂ (fun c r => ([alpha c], BitVec.ofNat 4 r, BitVec.ofNat 3 3)) hchar hrest

/-- So from `ENC_N = 0` an encode stream runs as from the cleared encoder. -/
theorem issueAll_encStream_of_empty (bs : List Byte) {s : State} (hr : s.rstSeen = true) (hn : s.encN = 0) :
    issueAll (bs.map .b32eByte ++ [.b32eFin]) s = issueAll (bs.map .b32eByte ++ [.b32eFin]) (setEnc 0 0 s) := by
  have hr0 : (setEnc 0 0 s).rstSeen = true := hr
  cases bs with
  | nil =>
    have hx : exec .b32eFin s = exec .b32eFin (setEnc 0 0 s) := by
      simp only [exec, execB32eFin, encFlush_eq, hn, setEnc_encN, if_pos]
      rfl
    rw [List.map_nil, List.nil_append, issueAll, issue_eq_exec _ hr, hx, ← issue_eq_exec _ hr0, issueAll]
  | cons b bs =>
    have hx : exec (.b32eByte b) s = exec (.b32eByte b) (setEnc 0 0 s) := by
      simp only [exec, execB32eByte, hn, setEnc_encN, setEnc_encAcc, encFeed_of_empty s.encAcc]
      rfl
    rw [List.map_cons, List.cons_append, issueAll, issue_eq_exec _ hr, hx, ← issue_eq_exec _ hr0, issueAll]

/-- An encode stream ends with the encoder cleared, whatever it held before (R133). -/
theorem issueAll_encStream_clears (bs : List Byte) {s : State} (hr : s.rstSeen = true) :
    ∃ rs t, issueAll (bs.map .b32eByte ++ [.b32eFin]) s = .next (rs, t) ∧ t.encAcc = 0 ∧ t.encN = 0 := by
  obtain ⟨rs, t, hrun, hrt⟩ := issueAll_answers (bs.map .b32eByte) hr
  exact ⟨_, _, issueAll_append_singleton hrun hrt rfl, rfl, rfl⟩

/-- Settles O27: on its own the stream emits `encodeBase32` of its bytes and ends cleared, and commands of other units
change neither. -/
theorem encoderStreamLaw : Obligations.EncoderStreamLaw := by
  intro bs is s hr hn hfilter
  obtain ⟨rs', t', hrun', hacc, hn'⟩ := issueAll_encStream_clears bs hr
  obtain ⟨rs, t, hrun, hrsp, hacct, hnt⟩ := issueAll_of_filter_unit (k := .encoder) hr (hfilter ▸ hrun')
  obtain ⟨rs0, t0, hrun0, hout⟩ :=
    issueAll_encStream bs (s := setEnc 0 0 s) (bits := []) hr ⟨rfl, rfl, by decide⟩
  rw [← issueAll_encStream_of_empty bs hr hn] at hrun0
  obtain ⟨rfl, -⟩ := Prod.mk.inj (Host.Outcome.next.inj (hrun'.symm.trans hrun0))
  exact ⟨rs, t, hrun, by rw [hrsp, hout]; rfl, hacct.trans hacc, hnt.trans hn'⟩

/-! ### The decoder stream law -/

/-- A stream that has failed answers INVALID_ENCODING to every further character and to `B32D.FIN` (R150, R144). -/
theorem issueAll_decStream_of_err (cs : List CharCode) {s : State} (hr : s.rstSeen = true) (herr : s.decErr = true) :
    ∃ t, issueAll (cs.map .b32dChar ++ [.b32dFin]) s =
      .next (List.replicate (cs.length + 1) ⟨.invalidEncoding, []⟩, t) := by
  induction cs generalizing s with
  | nil =>
    have hfin : exec .b32dFin s = .next (respond .invalidEncoding [] (clearDec s)) :=
      decVerdict_of_err herr ▸ rfl
    exact ⟨_, issueAll_cons hr hfin (by decide) rfl⟩
  | cons c cs ih =>
    have hchar : exec (.b32dChar c) s = .next (respond .invalidEncoding [] s) :=
      decVerdict_of_err herr ▸ exec_b32dChar_of_ended c (.inl herr)
    obtain ⟨t, hrun⟩ := ih (s := respond .invalidEncoding [] s) hr herr
    exact ⟨t, issueAll_cons hr hchar (by decide) hrun⟩

/-- A character other than a pad does not stop a running stream (R143). -/
theorem running_or_failed_of_exec_b32dChar {c : CharCode} {s t : State} (hc : classify c ≠ .pad)
    (herr : s.decErr = false) (hstop : s.decStop = false) (h : exec (.b32dChar c) s = .next t) :
    t.decErr = true ∨ t.decErr = false ∧ t.decStop = false := by
  have hnext {u : State} (hu : exec (.b32dChar c) s = .next u) : u = t := Host.Outcome.next.inj (hu.symm.trans h)
  cases hclass : classify c with
  | pad => exact absurd hclass hc
  | invalid => exact .inl (hnext (exec_b32dChar_invalid herr hstop hclass) ▸ rfl)
  | alphabet v => exact .inr (hnext (exec_b32dChar_alphabet herr hstop hclass) ▸ ⟨herr, hstop⟩)

/-- From the first invalid character before any pad on, a decode stream answers INVALID_ENCODING (R145). -/
theorem issueAll_decStream_invalid {cs : List CharCode} {k j : Nat} {c : CharCode} {s : State}
    (hr : s.rstSeen = true) (hs : s.decErr = true ∨ s.decErr = false ∧ s.decStop = false) (hk : cs[k]? = some c)
    (hc : classify c = .invalid) (hkj : k ≤ j) (hj : j ≤ cs.length)
    (hpre : ∀ m < k, ∀ b, cs[m]? = some b → classify b ≠ .pad) :
    ∃ rs t, issueAll (cs.map .b32dChar ++ [.b32dFin]) s = .next (rs, t) ∧
      rs[j]?.map (·.status) = some .invalidEncoding := by
  induction cs generalizing k j s with
  | nil => cases hk
  | cons b cs ih =>
    have hfailed : (List.replicate ((b :: cs).length + 1)
        (⟨.invalidEncoding, []⟩ : Response))[j]?.map (·.status) = some .invalidEncoding := by
      rw [List.getElem?_replicate_of_lt (Nat.lt_succ_of_le hj), Option.map_some]
    obtain herr | ⟨herr, hstop⟩ := hs
    · obtain ⟨t, hrun⟩ := issueAll_decStream_of_err (b :: cs) hr herr
      exact ⟨_, t, hrun, hfailed⟩
    cases k with
    | zero =>
      obtain rfl : b = c := Option.some.inj hk
      obtain ⟨t, hrun⟩ := issueAll_decStream_of_err cs (s := respond .invalidEncoding [] (setErr s)) hr rfl
      exact ⟨_, t, issueAll_cons hr (exec_b32dChar_invalid herr hstop hc) (by decide) hrun, hfailed⟩
    | succ k =>
      obtain ⟨j, rfl⟩ := Nat.exists_eq_succ_of_ne_zero (Nat.ne_of_gt (Nat.zero_lt_of_lt hkj))
      obtain ⟨st, out, u, hx, hlen, -, -, -, hrst⟩ := exec_responds (.b32dChar b) s
      have hu := running_or_failed_of_exec_b32dChar (hpre 0 k.succ_pos b rfl) herr hstop hx
      obtain ⟨rs, t, hrun, hst⟩ := ih (s := respond st out u) (hrst.trans hr) hu hk (Nat.le_of_succ_le_succ hkj)
        (Nat.le_of_succ_le_succ hj) fun m hm => hpre (m + 1) (Nat.succ_lt_succ hm)
      exact ⟨_, t, issueAll_cons hr hx hlen hrun, hst⟩

/-- The statuses that a decode stream can end with (R144). -/
theorem decVerdict_cases (s : State) : decVerdict s = .ok ∨ decVerdict s = .invalidEncoding := by
  cases herr : s.decErr with
  | false => exact .inl (decVerdict_of_not_err herr)
  | true => exact .inr (decVerdict_of_err herr)

/-- A decode stream from the cleared decoder ends with a verdict, under which its bytes are what the string decodes to
(R145, R151). -/
theorem issueAll_decStream (cs : List CharCode) {s : State} (hr : s.rstSeen = true) (hacc : s.decAcc = 0)
    (hn : s.decN = 0) (hstop : s.decStop = false) (herr : s.decErr = false) :
    ∃ rs t, issueAll (cs.map .b32dChar ++ [.b32dFin]) s = .next (rs, t) ∧
      (lastStatus rs = .ok ∨ lastStatus rs = .invalidEncoding) ∧
      (if lastStatus rs = .ok then .ok (emitted rs) else .error .invalidEncoding) = decodeBase32 cs := by
  obtain ⟨rs, u, hrun, hru, hresult⟩ := issueAll_chars cs [] hr (by simp [DecInv, hacc, hn]) herr hstop
  have hfin : responseOf (respond (decVerdict u) [] (clearDec u)) = ⟨decVerdict u, []⟩ :=
    responseOf_respond _ (by decide) _
  have hbytes : emitted (rs ++ [⟨decVerdict u, []⟩]) = emitted rs := by simp [emitted]
  have hstream := issueAll_append_singleton (i := .b32dFin) hrun hru rfl
  rw [hfin] at hstream
  refine ⟨_, _, hstream, ?_, ?_⟩
  · rw [lastStatus_append_singleton]
    exact decVerdict_cases u
  · rw [lastStatus_append_singleton, hbytes, decodeResult_eq]
    rwa [hacc, hn] at hresult

/-- Settles O33: on its own the stream has the verdict and the bytes by `issueAll_decStream` and the responses after an
invalid character by `issueAll_decStream_invalid`, and commands of other units change none of them. -/
theorem decoderStreamLaw : Obligations.DecoderStreamLaw := by
  intro cs is s hr hacc hn hstop herr hfilter
  obtain ⟨rs', t', hrun', hlast, hresult⟩ := issueAll_decStream cs hr hacc hn hstop herr
  obtain ⟨rs, t, hrun, rfl, -⟩ := issueAll_of_filter_unit (k := .decoder) hr (hfilter ▸ hrun')
  refine ⟨rs, t, hrun, fun out hout => ?_, fun e he => ?_, fun k j c hk hc hkj hj hpre => ?_⟩
  · rw [hout] at hresult
    split at hresult
    case isTrue hok => exact ⟨hok, Except.ok.inj hresult⟩
    case isFalse => cases hresult
  · refine hlast.resolve_left fun hok => ?_
    rw [if_pos hok, he] at hresult
    cases hresult
  · obtain ⟨rs0, t0, hrun0, hst⟩ := issueAll_decStream_invalid hr (.inr ⟨herr, hstop⟩) hk hc hkj hj hpre
    obtain ⟨hrs, -⟩ := Prod.mk.inj (Host.Outcome.next.inj (hrun'.symm.trans hrun0))
    rw [hrs, hst]

end Sys2Proof.Proofs
end

/-! The HOTP unit (spec/43_hotp.md R170 to R178): the digest buffer, truncation in the arithmetic of the digest's
bytes, and the code extractor, which `HT.CODE` and `HT.HOTP` share. -/

section
namespace Sys2Proof.Proofs

open Sys2Proof.Machine

/-! ### The digest buffer -/

/-- A command of the unit leaves every register of the other units (R32, R104). -/
theorem frame_of_hotp {i : Instr} {s t : State} (hi : i.unit = .hotp) (h : exec i s = .next t) :
    EncSame s t ∧ DecSame s t ∧ HostSame s t :=
  ⟨unitAgrees_of_exec (k := .encoder) h (by simp [hi]), unitAgrees_of_exec (k := .decoder) h (by simp [hi]),
    hostSame_of_exec h⟩

/-- Settles O42, by the index check: `setDig` behind it, the bare error response otherwise. -/
theorem digestByteWrite : Obligations.DigestByteWrite := by
  intro s d i
  have hidx : (fieldI d).toNat = i := fieldI_toNat d
  have haccept : acceptCommand (commandWord 0x40 d) s = exec (.htDig (fieldI d) (fieldB d)) s :=
    acceptCommand_of_decodeFields rfl s
  by_cases hlt : (fieldI d).toNat < 20
  · have hrun : exec (.htDig (fieldI d) (fieldB d)) s =
        .next (respond .ok [] (setDig (fieldI d).toNat hlt (fieldB d) s)) := dif_pos hlt
    obtain ⟨henc, hdec, hhost⟩ := frame_of_hotp rfl hrun
    refine ⟨_, hrun, haccept.trans hrun, fun _ => ⟨answers_respond .ok [] _ rfl, fun k => ?_⟩,
      fun hge => absurd (hidx ▸ hlt) (Nat.not_lt.mpr hge), henc, hdec, ⟨rfl, rfl⟩, ⟨rfl, rfl⟩, hhost⟩
    simp only [respond_dig, setDig_dig, Fin.getElem_fin, Vector.getElem_set, hidx, eq_comm (a := i)]
    rfl
  · have hrun : exec (.htDig (fieldI d) (fieldB d)) s = .next (respond .illegalOperand [] s) := dif_neg hlt
    obtain ⟨henc, hdec, hhost⟩ := frame_of_hotp rfl hrun
    exact ⟨_, hrun, haccept.trans hrun, fun hlt' => absurd (hidx ▸ hlt') hlt,
      fun _ => ⟨answers_respond .illegalOperand [] s rfl, rfl⟩, henc, hdec, ⟨rfl, rfl⟩, ⟨rfl, rfl⟩, hhost⟩

/-! ### Truncation -/

/-- A byte of the buffer as a number. -/
theorem digNat_of_lt (s : State) {i : Nat} (hi : i < 20) : digNat s i = (s.dig[i]).toNat := by
  rw [digNat, List.getD_eq_getElem _ _ (by simpa using hi), Vector.getElem_toList]

/-- The offset of the digest buffer (R170). -/
theorem dtOffset_dig (s : State) : (dtOffset s.dig).toNat = digNat s 19 % 16 := by
  rw [dtOffset_toNat, digNat_of_lt s (by decide)]

/-- The bytes that truncation reads, numbered from the offset (R170). -/
theorem dtByte_dig (s : State) (k : Fin 4) :
    dtByte s.dig (dtOffset s.dig) k = digNat s (digNat s 19 % 16 + k) := by
  have hk : digNat s 19 % 16 + k < 20 := by omega
  simp only [digNat_of_lt s hk, dtByte, dtOffset_dig]

/-- The four bytes of a 31-bit value, from its big-endian digits (R173). -/
theorem truncBytes_of_toNat {bin : BitVec 31} {b0 b1 b2 b3 : Nat}
    (h : bin.toNat = b0 * 2 ^ 24 + b1 * 2 ^ 16 + b2 * 2 ^ 8 + b3) (h1 : b1 < 256) (h2 : b2 < 256) (h3 : b3 < 256) :
    truncBytes bin = [BitVec.ofNat 8 b0, BitVec.ofNat 8 b1, BitVec.ofNat 8 b2, BitVec.ofNat 8 b3] := by
  have hlt : bin.toNat < 2 ^ 31 := bin.isLt
  simp only [truncBytes, List.cons.injEq, ← BitVec.toNat_inj, BitVec.toNat_setWidth, BitVec.extractLsb'_toNat,
    BitVec.toNat_ofNat, Nat.shiftRight_eq_div_pow, and_true]
  omega

/-- Settles O43: the offset, the value and its bytes are those of `dtOffset` and `dtBinary`, written in the buffer's
bytes. -/
theorem truncationResult : Obligations.TruncationResult := by
  intro s d o
  have hbin : (dtBinary s.dig).toNat = digNat s o % 128 * 2 ^ 24 + digNat s (o + 1) * 2 ^ 16 +
      digNat s (o + 2) * 2 ^ 8 + digNat s (o + 3) := by
    simp only [dtBinary_toNat, dtByte_dig]
    rfl
  have hbytes := truncBytes_of_toNat hbin (BitVec.isLt _) (BitVec.isLt _) (BitVec.isLt _)
  have hrun : exec .htTrunc s = .next (respond .ok (truncBytes (dtBinary s.dig)) (truncate s)) := rfl
  obtain ⟨henc, hdec, hhost⟩ := frame_of_hotp rfl hrun
  exact ⟨_, hrun, acceptCommand_of_decodeFields (i := .htTrunc) (d := d) rfl s, dtOffset_dig s, hbin,
    hbytes ▸ answers_respond .ok (truncBytes (dtBinary s.dig)) _ rfl, henc, hdec, rfl, ⟨rfl, rfl⟩, hhost⟩

/-- Settles O46: the offset is the low nibble of byte 19, and the value is a sum of the four bytes at it. -/
theorem truncationReadsFourBytes : Obligations.TruncationReadsFourBytes := by
  intro h h'
  have hle : (dtOffset h).toNat + 3 ≤ 18 := by omega
  refine ⟨hle, fun hnibble hagree => ?_⟩
  have hoff : dtOffset h = dtOffset h' :=
    BitVec.eq_of_toNat_eq (by rw [dtOffset_toNat, dtOffset_toNat, hnibble])
  have hbytes : dtByte h (dtOffset h) = dtByte h' (dtOffset h') := by
    rw [← hoff]
    funext k
    exact congrArg BitVec.toNat
      (hagree ⟨(dtOffset h).toNat + k, by omega⟩ (Nat.le_add_right _ _) (by dsimp only; omega))
  exact ⟨hoff, BitVec.eq_of_toNat_eq (by rw [dtBinary_toNat, dtBinary_toNat, hbytes])⟩

/-! ### The code extractor -/

/-- The characters of a code value are its six digits (R171). -/
theorem codeChars_toList (v : Nat) : (codeChars v).toList = sixDigits v := by
  simp [codeChars, codeDigit, digitChar]

/-- What the extractor writes and answers, from `TR_BIN` as it stands (R174). -/
theorem extractCode_spec (s : State) :
    (extractCode s).codeVal.toNat = s.trBin.toNat % 1000000 ∧
    (extractCode s).codeChr.toList = sixDigits (s.trBin.toNat % 1000000) ∧
    Answers (extractCode s) .ok (sixDigits (s.trBin.toNat % 1000000)) :=
  ⟨Nat.mod_eq_of_lt ((codeValue_lt s.trBin).trans (by decide)), codeChars_toList _,
    codeChars_toList _ ▸ answers_respond .ok (codeChars (codeValue s.trBin)).toList (writeCode s) rfl⟩

/-- Settles O44, by `extractCode_spec`. -/
theorem codeResult : Obligations.CodeResult := by
  intro s d v
  have hrun : exec .htCode s = .next (extractCode s) := rfl
  obtain ⟨hval, hchr, hanswers⟩ := extractCode_spec s
  obtain ⟨henc, hdec, hhost⟩ := frame_of_hotp rfl hrun
  exact ⟨_, hrun, acceptCommand_of_decodeFields (i := .htCode) (d := d) rfl s, hval, hchr, hanswers, henc, hdec, rfl,
    ⟨rfl, rfl⟩, hhost⟩

/-- Settles O45: the extractor overwrites the response of `HT.TRUNC`, so after that command it ends where `HT.HOTP`
does. -/
theorem hotpIsTruncThenCode : Obligations.HotpIsTruncThenCode := by
  intro s d
  have hhotp : exec .htHotp s = .next (extractCode (truncate s)) := rfl
  have hcode : exec .htCode (respond .ok (truncBytes (dtBinary s.dig)) (truncate s)) =
      .next (extractCode (truncate s)) := rfl
  obtain ⟨hval, hchr, hanswers⟩ := extractCode_spec (truncate s)
  obtain ⟨henc, hdec, hhost⟩ := frame_of_hotp rfl hhotp
  exact ⟨_, _, rfl, hcode, hhotp, acceptCommand_of_decodeFields (i := .htHotp) (d := d) rfl s, rfl, rfl, hval, hchr,
    hanswers, henc, hdec, rfl, hhost⟩

/-- Both code commands end in the extractor (R174, R175). -/
theorem eq_extractCode_of_exec {i : Instr} {s t : State} (hi : i = .htCode ∨ i = .htHotp)
    (h : exec i s = .next t) : ∃ u, t = extractCode u := by
  obtain rfl | rfl := hi
  · exact ⟨s, (Host.Outcome.next.inj h).symm⟩
  · exact ⟨truncate s, (Host.Outcome.next.inj h).symm⟩

/-- A number below 1000000 is the weighted sum of its six decimal digits, here written out. -/
theorem sum_sixDigits {v : Nat} (hv : v < 1000000) :
    ((List.finRange 6).map fun k : Fin 6 => v / 10 ^ (5 - k.val) % 10 * 10 ^ (5 - k.val)).sum = v := by
  change v / 100000 % 10 * 100000 + (v / 10000 % 10 * 10000 + (v / 1000 % 10 * 1000 + (v / 100 % 10 * 100 +
    (v / 10 % 10 * 10 + (v / 1 % 10 * 1 + 0))))) = v
  omega

/-- Settles O47: the extractor leaves the digits of the code invariant, which the response repeats. -/
theorem codeIsSixDigits : Obligations.CodeIsSixDigits := by
  intro s t i hi h
  obtain ⟨u, rfl⟩ := eq_extractCode_of_exec hi h
  obtain ⟨hle, hdigit⟩ : CodeInv (extractCode u) := codeInv_writeCode u
  refine ⟨hle, rfl, fun k => ?_, fun k => ?_, ?_⟩
  · rw [hdigit k]
    omega
  · fin_cases k <;> rfl
  · simp only [hdigit, Nat.add_sub_cancel_left]
    exact sum_sixDigits (Nat.lt_succ_of_le hle)

end Sys2Proof.Proofs
end

/-! Errors (spec/60_exceptions.md R200 to R205). What can make a command fail, with what the failing command writes, is
said once, by `Failure`: a command answers a status other than OK exactly when it has a failure with that status. The
causes of each status and the precision of errors are read off its cases. -/

section
namespace Sys2Proof.Proofs

open Sys2Proof.Machine

/-! ### The causes of errors -/

/-- The command of opcode `op` and operand `d` fails in `s` with the status `st`, and responds over `u`: the causes of
R201 to R203, with the register writes that their own rules name (R143, R144, R205). -/
inductive Failure (s : State) : (op : BitVec 8) → (d : Data) → (st : Status) → (u : State) → Prop where
  | invalidChar (d : Data) (herr : s.decErr = false) (hstop : s.decStop = false) (hc : classify (fieldC d) = .invalid) :
    Failure s 0x21 d .invalidEncoding (setErr s)
  | failedChar (d : Data) (herr : s.decErr = true) : Failure s 0x21 d .invalidEncoding s
  | failedFin (d : Data) (herr : s.decErr = true) : Failure s 0x22 d .invalidEncoding (clearDec s)
  | unassigned {op : BitVec 8} (d : Data) (hop : op ∉ assignedOpcodes) : Failure s op d .illegalCommand s
  | digIndex (d : Data) (hidx : ¬(fieldI d).toNat < 20) : Failure s 0x40 d .illegalOperand s

/-- A command with a failure answers its status and no bytes, over the writes of that failure. -/
theorem Failure.acceptCommand_eq {s u : State} {op : BitVec 8} {d : Data} {st : Status} (h : Failure s op d st u) :
    acceptCommand (commandWord op d) s = .next (respond st [] u) := by
  cases h with
  | invalidChar _ herr hstop hc =>
    exact (acceptCommand_of_decodeFields rfl s).trans (exec_b32dChar_invalid herr hstop hc)
  | failedChar _ herr =>
    exact (acceptCommand_of_decodeFields rfl s).trans
      (decVerdict_of_err herr ▸ exec_b32dChar_of_ended (fieldC d) (.inl herr))
  | failedFin _ herr =>
    rw [← decVerdict_of_err herr]
    exact acceptCommand_of_decodeFields (i := .b32dFin) rfl s
  | unassigned _ hop => exact acceptCommand_of_not_assigned hop d s
  | digIndex _ hidx =>
    have hrun : exec (.htDig (fieldI d) (fieldB d)) s = .next (respond .illegalOperand [] s) := dif_neg hidx
    exact (acceptCommand_of_decodeFields rfl s).trans hrun

/-- A character answers OK unless its stream has failed, or runs and the character is invalid (R143, R201). -/
theorem failure_of_exec_b32dChar {d : Data} {s t : State} (h : exec (.b32dChar (fieldC d)) s = .next t)
    (hst : t.rspSt ≠ .ok) : ∃ st u, Failure s 0x21 d st u := by
  have hnext {v : State} (hv : exec (.b32dChar (fieldC d)) s = .next v) : v.rspSt ≠ .ok :=
    Host.Outcome.next.inj (h.symm.trans hv) ▸ hst
  by_cases herr : s.decErr = true
  · exact ⟨_, _, .failedChar d herr⟩
  have herr' : s.decErr = false := Bool.eq_false_iff.mpr herr
  by_cases hstop : s.decStop = true
  · exact absurd (decVerdict_of_not_err herr') (hnext (exec_b32dChar_of_ended _ (.inr hstop)))
  have hstop' : s.decStop = false := Bool.eq_false_iff.mpr hstop
  cases hc : classify (fieldC d) with
  | pad => exact absurd rfl (hnext (exec_b32dChar_pad herr' hstop' hc))
  | alphabet v => exact absurd rfl (hnext (exec_b32dChar_alphabet herr' hstop' hc))
  | invalid => exact ⟨_, _, .invalidChar d herr' hstop' hc⟩

/-- A decoded instruction that does not answer OK has a failure: only `B32D.CHAR`, `B32D.FIN` and `HT.DIG` can. -/
theorem failure_of_exec {op : BitVec 8} {d : Data} {i : Instr} {s t : State} (hi : decodeFields op d = .ok i)
    (h : exec i s = .next t) (hst : t.rspSt ≠ .ok) : ∃ st u, Failure s op d st u := by
  obtain rfl : i.opcode = op := opcode_of_decodeFields hi
  cases i with
  | b32dChar c =>
    obtain rfl : fieldC d = c := Instr.b32dChar.inj (Except.ok.inj hi)
    exact failure_of_exec_b32dChar h hst
  | b32dFin =>
    obtain rfl : respond (decVerdict s) [] (clearDec s) = t := Host.Outcome.next.inj h
    have herr : s.decErr = true := Bool.of_not_eq_false fun herr => hst (decVerdict_of_not_err herr)
    exact ⟨_, _, .failedFin d herr⟩
  | htDig idx b =>
    obtain ⟨rfl, -⟩ : fieldI d = idx ∧ fieldB d = b := Instr.htDig.inj (Except.ok.inj hi)
    refine ⟨_, _, .digIndex d fun hlt => hst ?_⟩
    exact Host.Outcome.next.inj (h.symm.trans (dif_pos hlt)) ▸ rfl
  | _ => exact absurd (Host.Outcome.next.inj h ▸ rfl) hst

/-- The inversion lemma of errors: a command that does not answer OK has a failure, and its next state is that
failure's response. -/
theorem acceptCommand_failure {op : BitVec 8} {d : Data} {s t : State}
    (h : acceptCommand (commandWord op d) s = .next t) (hst : t.rspSt ≠ .ok) :
    ∃ st u, Failure s op d st u ∧ t = respond st [] u := by
  have hfail : ∃ st u, Failure s op d st u := by
    by_cases hop : op ∈ assignedOpcodes
    · obtain ⟨i, hi⟩ := decodeFields_of_assigned d hop
      exact failure_of_exec hi ((acceptCommand_of_decodeFields hi s).symm.trans h) hst
    · exact ⟨_, _, .unassigned d hop⟩
  obtain ⟨st, u, hf⟩ := hfail
  exact ⟨st, u, hf, Host.Outcome.next.inj (h.symm.trans hf.acceptCommand_eq)⟩

/-- A command answers an error status exactly when it has a failure with that status. -/
theorem rspSt_eq_iff_failure {op : BitVec 8} {d : Data} {s t : State} {st : Status}
    (h : acceptCommand (commandWord op d) s = .next t) (hst : st ≠ .ok) :
    t.rspSt = st ↔ ∃ u, Failure s op d st u := by
  constructor
  · rintro rfl
    obtain ⟨st, u, hf, rfl⟩ := acceptCommand_failure h hst
    exact ⟨u, hf⟩
  · rintro ⟨u, hf⟩
    exact Host.Outcome.next.inj (h.symm.trans hf.acceptCommand_eq) ▸ rfl

/-- Settles O49: each status has the failures of that status, in both directions. -/
theorem statusHasExactCauses : Obligations.StatusHasExactCauses := by
  intro s t op d h
  refine ⟨(rspSt_eq_iff_failure h (by decide)).trans ⟨?_, ?_⟩, (rspSt_eq_iff_failure h (by decide)).trans ⟨?_, ?_⟩,
    (rspSt_eq_iff_failure h (by decide)).trans ⟨?_, ?_⟩⟩
  · rintro ⟨u, hf⟩
    cases hf with
    | invalidChar _ herr hstop hc => exact .inl ⟨rfl, herr, hstop, hc⟩
    | failedChar _ herr => exact .inr (.inl ⟨rfl, herr⟩)
    | failedFin _ herr => exact .inr (.inr ⟨rfl, herr⟩)
  · rintro (⟨rfl, herr, hstop, hc⟩ | ⟨rfl, herr⟩ | ⟨rfl, herr⟩)
    · exact ⟨_, .invalidChar d herr hstop hc⟩
    · exact ⟨_, .failedChar d herr⟩
    · exact ⟨_, .failedFin d herr⟩
  · rintro ⟨u, hf⟩
    cases hf with
    | unassigned _ hop => exact hop
  · exact fun hop => ⟨_, .unassigned d hop⟩
  · rintro ⟨u, hf⟩
    cases hf with
    | digIndex _ hidx => exact ⟨rfl, fieldI_toNat d ▸ Nat.le_of_not_lt hidx⟩
  · rintro ⟨rfl, hidx⟩
    exact ⟨_, .digIndex d (fieldI_toNat d ▸ Nat.not_lt.mpr hidx)⟩

/-! ### Errors are precise -/

/-- A failure writes nothing but the decoder, and there, `B32D.FIN` apart, only the flag of an invalid character
(R205). -/
theorem Failure.frame {s u : State} {op : BitVec 8} {d : Data} {st : Status} (h : Failure s op d st u) :
    EncSame s u ∧ HotpSame s u ∧ HostSame s u ∧
    (op ≠ 0x22 → u.decAcc = s.decAcc ∧ u.decN = s.decN ∧ u.decStop = s.decStop ∧
      u.decErr = (s.decErr || decide (st = .invalidEncoding))) := by
  have hothers : EncSame s u ∧ HotpSame s u ∧ HostSame s u := by
    cases h <;> exact ⟨⟨rfl, rfl⟩, ⟨rfl, ⟨rfl, rfl⟩, ⟨rfl, rfl⟩⟩, rfl, rfl, rfl⟩
  obtain ⟨henc, hhotp, hhost⟩ := hothers
  refine ⟨henc, hhotp, hhost, fun hfin => ?_⟩
  cases h with
  | invalidChar => exact ⟨rfl, rfl, rfl, (Bool.or_true _).symm⟩
  | failedChar _ herr => simp [herr]
  | failedFin => exact absurd rfl hfin
  | unassigned | digIndex => simp

/-- Settles O50: the next state is a failure's response with no bytes, over the writes of `Failure.frame`. -/
theorem errorsArePrecise : Obligations.ErrorsArePrecise := by
  intro s t w h hst
  rw [← commandWord_opOf_dataOf w] at h
  obtain ⟨st, u, hf, rfl⟩ := acceptCommand_failure h hst
  exact ⟨answers_respond st [] u rfl, hf.frame⟩

/-! ### The status codes, and the state between commands -/

/-- Settles O54: the codes of R200, case by case. -/
theorem statusCodesDiffer : Obligations.StatusCodesDiffer := ⟨rfl, rfl, rfl, rfl⟩

/-- Settles O11, by `step_of_nil`. -/
theorem idleStepKeepsState : Obligations.IdleStepKeepsState := fun _ => step_of_nil

end Sys2Proof.Proofs
end

/-! Reset and the host's actions (spec/70_reset_and_hazards.md R220 to R224, R233, R240). After the first reset the host
is answered at every action, and before it only `RST` is: what one action answers is said once, by `hostAct_records`. -/

section
namespace Sys2Proof.Proofs

open Sys2Proof.Machine

/-! ### The host's actions run to their end -/

/-- An action that the block takes, after the first reset or `RST` itself, adds one thing seen, a response if it is a
command, to a block that has been reset and that leaves the other actions to be taken (R233, R240). -/
theorem hostAct_records {a : HostAction} {s : State} (h : s.rstSeen = true ∨ a = .assertRst) :
    ∃ x t, hostAct a s = .next t ∧ t.pending = s.pending ∧ t.seen = s.seen ++ [x] ∧ t.rstSeen = true ∧
      ∀ w, a = .command w → ∃ r, x = .response r := by
  cases a with
  | command w =>
    have hr : s.rstSeen = true := h.resolve_right nofun
    obtain ⟨st, out, u, hu, -, -, hpend, hseen, hrst⟩ := acceptCommand_responds w s
    exact ⟨_, _, hostCommand_of_next hr hu, hpend, congrArg (· ++ [_]) hseen, hrst.trans hr, fun _ _ => ⟨_, rfl⟩⟩
  | readPort sel =>
    have hr : s.rstSeen = true := h.resolve_right nofun
    exact ⟨_, _, hostRead_of_rstSeen sel hr, rfl, rfl, hr, nofun⟩
  | assertRst => exact ⟨.resetDone, _, rfl, rfl, rfl, rfl, nofun⟩

/-- A run takes its first step, then goes on. -/
theorem run_succ_of_step {s t : State} (h : step s = .next t) (k : Nat) : core.run (k + 1) s = core.run k t := by
  have hstep : core.step s = .next t := h
  simp only [Host.Core.run, hstep]

/-- Settles O10, by induction on the actions: each is one step, answered by `hostAct_records`, after which the block has
been reset. -/
theorem hostActionsRunToTheirEnd : Obligations.HostActionsRunToTheirEnd := by
  intro acts
  induction acts with
  | nil => exact fun s _ hp => ⟨s, [], rfl, hp, (List.append_nil _).symm, rfl, id, nofun⟩
  | cons a rest ih =>
    intro s hready hp
    have ha : (setPending rest s).rstSeen = true ∨ a = .assertRst := hready.imp_right Option.some.inj
    obtain ⟨x, u, hact, hpend, hseen, hrst, hresp⟩ := hostAct_records ha
    have hstep : step s = .next u := (step_of_cons hp).trans hact
    obtain ⟨t, new, hrun, hdone, hnew, hlen, hinv, hall⟩ := ih u (.inl hrst) hpend
    refine ⟨t, x :: new, (run_succ_of_step hstep _).trans hrun, hdone, ?_, congrArg (· + 1) hlen,
      fun hs => hinv (stepKeepsInvariants s u hs hstep), fun k w hk => ?_⟩
    · rw [hnew, hseen, setPending_seen, List.append_assoc, List.singleton_append]
    · cases k with
      | zero =>
        obtain ⟨r, rfl⟩ := hresp w (Option.some.inj hk)
        exact ⟨r, rfl⟩
      | succ k => exact hall k w hk

/-! ### A stopped stream -/

/-- Settles O41, by induction on the characters: each answers OK with no bytes and changes the response only. -/
theorem stoppedStreamIgnoresCharacters : Obligations.StoppedStreamIgnoresCharacters := by
  intro cs
  induction cs with
  | nil => exact fun s _ _ _ => ⟨[], s, rfl, ⟨rfl, rfl, rfl, rfl⟩, nofun⟩
  | cons c cs ih =>
    intro s hr hstop herr
    have hchar : exec (.b32dChar c) s = .next (respond .ok [] s) :=
      decVerdict_of_not_err herr ▸ exec_b32dChar_of_ended c (.inr hstop)
    obtain ⟨rs, t, hrun, hsame, hok⟩ := ih (respond .ok [] s) hr hstop herr
    exact ⟨_, t, issueAll_cons hr hchar (by decide) hrun, hsame, List.forall_mem_cons.mpr ⟨⟨rfl, rfl⟩, hok⟩⟩

/-! ### Reset -/

/-- `RST` is never refused: its step resets the registers and records it (R220, R233). -/
theorem step_assertRst {s : State} {rest : List HostAction} (hp : s.pending = .assertRst :: rest) :
    step s = .next (record .resetDone (applyReset (setPending rest s))) := step_of_cons hp

/-- Settles O13: the state is `State.reset` up to the host's side, and its registers are closed values. -/
theorem resetSetsEveryRegister : Obligations.ResetSetsEveryRegister := by
  intro t ht
  obtain ⟨p, q, rfl⟩ : ∃ p q, t = { State.reset with pending := p, seen := q } := by
    obtain rfl | ⟨s, rest, hp, hst⟩ := ht
    · exact ⟨[], [], rfl⟩
    · exact ⟨_, _, Host.Outcome.next.inj (hst.symm.trans (step_assertRst hp))⟩
  have hdig : ∀ k : Fin 20, State.reset.dig[k] = 0 := by decide
  have hchr : ∀ k : Fin 6, State.reset.codeChr[k] = 0x30 := by decide
  have hdat : ∀ k : Fin 8, State.reset.rspDat[k] = 0 := by decide
  exact ⟨rfl, rfl, rfl, rfl, rfl, rfl, hdig, rfl, rfl, rfl, hchr, rfl, rfl, hdat⟩

/-- Settles O14, by `step_assertRst`. -/
theorem resetStepAnswers : Obligations.ResetStepAnswers := fun _ _ hp => ⟨_, step_assertRst hp, rfl, rfl, rfl⟩

/-! ### Before the first reset -/

/-- After a refusal the host does not go on. -/
@[simp] theorem andThen_refused {σ τ : Type} (r : Refusal) (f : σ → Host.Outcome τ Fault Refusal) :
    andThen (.refused r) f = .refused r := rfl

/-- The window's counters, each by its distance from the first (R239). -/
theorem windowCounters_eq (c : Int) (w : Nat) :
    windowCounters c w = (List.range (2 * w + 1)).map fun j : Nat => c - w + j := by
  rw [windowCounters, List.bind_eq_flatMap, List.map_flatMap]
  exact List.flatMap_pure_eq_map _ _

section NeverReset

variable {s : State} (h : s.rstSeen = false)
include h

/-- A list of commands is refused at its first (R221). -/
theorem issueAll_of_never_reset (i : Instr) (is : List Instr) :
    issueAll (i :: is) s = .refused .beforeFirstReset := by
  rw [issueAll, issue_of_never_reset i s h, andThen_refused]

/-- An encode stream is refused at its first command (R221). -/
theorem hostEncode_of_never_reset (bs : List Byte) : hostEncode bs s = .refused .beforeFirstReset := by
  rw [hostEncode, pseudoBytes, List.cons_append, issueAll_of_never_reset h, andThen_refused]

/-- A decode stream is refused at its first command (R221). -/
theorem hostDecode_of_never_reset (cs : List CharCode) : hostDecode cs s = .refused .beforeFirstReset := by
  rw [hostDecode, pseudoStr, List.cons_append, issueAll_of_never_reset h, andThen_refused]

/-- `generateCode` is refused at its `BE64` (R221, R237). -/
theorem generateCode_of_never_reset (key : List Byte) (c : Int) :
    generateCode key c s = .refused .beforeFirstReset := by
  rw [generateCode, issue_of_never_reset _ s h, andThen_refused]

/-- `generateTotp` is refused where it decodes its secret, or else where it generates the code (R221, R238). -/
theorem generateTotp_of_never_reset (secret : Secret) (ms : Int) :
    generateTotp secret ms s = .refused .beforeFirstReset := by
  cases secret with
  | base32 cs => rw [generateTotp, secretKey, hostDecode_of_never_reset h, andThen_refused]
  | bytes key => simp only [generateTotp, secretKey, andThen_next, generateCode_of_never_reset h, andThen_refused]

/-- The window has at least one counter, so trying its codes is refused (R221, R239). -/
theorem anyMatches_windowCounters_of_never_reset (token : List CharCode) (key : List Byte) (c : Int) (w : Nat) :
    anyMatches token key (windowCounters c w) s = .refused .beforeFirstReset := by
  rw [windowCounters_eq, List.range_succ_eq_map, List.map_cons, anyMatches, generateCode_of_never_reset h,
    andThen_refused]

/-- `verifyTotp` is refused where it decodes its secret, or else at the first counter of the window (R221, R239). -/
theorem verifyTotp_of_never_reset (token : List CharCode) (secret : Secret) (ms : Int) (w : Nat) :
    verifyTotp token secret ms s w = .refused .beforeFirstReset := by
  cases secret with
  | base32 cs => rw [verifyTotp, secretKey, hostDecode_of_never_reset h, andThen_refused]
  | bytes key =>
    simp only [verifyTotp, secretKey, andThen_next, anyMatches_windowCounters_of_never_reset h, andThen_refused]

/-- `withFetchWord` resets the block before it places its command (R222). -/
theorem withFetchWord_of_never_reset (nbits w : Nat) :
    s.withFetchWord nbits w =
      { State.reset with pending := .command (tableCommand nbits w) :: s.pending, seen := s.seen } := by
  rw [State.withFetchWord, present_eq, booted_of_never_reset s h]
  rfl

/-- A command of the host is refused at the port (R221). -/
theorem hostCommand_of_never_reset (w : CommandWord) : hostCommand w s = .refused .beforeFirstReset := by
  rw [hostCommand, portCommand_of_never_reset w s h, andThen_refused]

/-- A read of the observation port is refused (R221). -/
theorem hostRead_of_never_reset (sel : BitVec 8) : hostRead sel s = .refused .beforeFirstReset :=
  if_neg (Bool.eq_false_iff.mp h)

end NeverReset

/-- Settles O12, action by action and procedure by procedure: each is refused at the first command it issues. -/
theorem beforeFirstResetRefused : Obligations.BeforeFirstResetRefused := fun s h =>
  ⟨fun w rest hp => (step_of_cons hp).trans (hostCommand_of_never_reset (s := setPending rest s) h w),
    fun sel rest hp => (step_of_cons hp).trans (hostRead_of_never_reset (s := setPending rest s) h sel),
    fun _ hp => ⟨_, step_assertRst hp, rfl⟩,
    fun i => issue_of_never_reset i s h,
    issueAll_of_never_reset h,
    hostEncode_of_never_reset h,
    hostDecode_of_never_reset h,
    generateCode_of_never_reset h,
    generateTotp_of_never_reset h,
    verifyTotp_of_never_reset h,
    withFetchWord_of_never_reset h⟩

end Sys2Proof.Proofs
end

/-! The host procedures of spec/70_reset_and_hazards.md R236 to R239. Each runs to its value from any block that has
been reset, and leaves such a block to the next: the key of the secret first, then a code for each counter. -/

section
namespace Sys2Proof.Proofs

open Sys2Proof.Machine

/-! ### The counter of a timestamp -/

/-- The two exact quotients are one, by 30000, and flooring it is flooring division (R236). -/
theorem counterOfMs_eq_fdiv (ms : Int) : counterOfMs ms = Int.fdiv ms 30000 := by
  have hquot : (ms : Rat) / 1000 / (Config.timeStep : Rat) = (ms : Rat) / (30000 : Nat) := by
    rw [div_div]
    norm_num
  rw [counterOfMs, toCounter, toUnixTime, hquot, Int.fdiv_eq_ediv_of_nonneg _ (by decide)]
  exact Rat.floor_intCast_div_natCast ms 30000

/-- Settles O57: the bounds are those of division by 30000. -/
theorem counterOfTimestamp : Obligations.CounterOfTimestamp := by
  intro ms
  have hdiv : counterOfMs ms = ms / 30000 :=
    (counterOfMs_eq_fdiv ms).trans (Int.fdiv_eq_ediv_of_nonneg _ (by decide))
  exact ⟨by omega, by omega, counterOfMs_eq_fdiv ms⟩

/-! ### The key and the code, from a block that has been reset -/

/-- A procedure that answers has answered at each of its two stages. -/
theorem andThen_eq_next {σ τ : Type} {o : Host.Outcome σ Fault Refusal} {f : σ → Host.Outcome τ Fault Refusal} {b : τ}
    (h : andThen o f = .next b) : ∃ a, o = .next a ∧ f a = .next b := by
  cases o with
  | next a => exact ⟨a, rfl, h⟩
  | fault r => cases h
  | refused r => cases h

/-- A command is answered by a block that has been reset, and leaves it so (R221). -/
theorem rstSeen_of_issue {i : Instr} {s t : State} (h : issue i s = .next t) : t.rstSeen = true := by
  cases hr : s.rstSeen with
  | true =>
    obtain ⟨u, hu, -, -, hrst⟩ := issue_of_rstSeen i s hr
    obtain rfl : u = t := Host.Outcome.next.inj (hu.symm.trans h)
    exact hrst.trans hr
  | false => cases (issue_of_never_reset i s hr).symm.trans h

/-- The code of a counter under a key, as the whole functions give it (R171, R237). -/
def codeOfCounter (key : List Byte) (c : Int) : List Byte :=
  digestCode (Config.hmacSha1 key (intToBytes (counterWord c)))

/-- `generateCode` gives the code of its counter; its last command leaves a block that has been reset. -/
theorem generateCode_eq (key : List Byte) (c : Int) {s : State} (hr : s.rstSeen = true) :
    ∃ t, generateCode key c s = .next (codeOfCounter key c, t) ∧ t.rstSeen = true := by
  obtain ⟨t, hgen⟩ := generateCode_spec key c hr
  obtain ⟨_, -, hload⟩ := andThen_eq_next hgen
  obtain ⟨_, -, hhotp⟩ := andThen_eq_next hload
  obtain ⟨u, hu, hlast⟩ := andThen_eq_next hhotp
  obtain ⟨-, rfl⟩ := Prod.mk.inj (Host.Outcome.next.inj hlast)
  exact ⟨u, hgen, rstSeen_of_issue hu⟩

/-- The key of a secret as the whole functions give it (R238 steps 1 and 2). -/
def keyOfSecret : Secret → Except InvalidEncodingError (List Byte)
  | .base32 cs => decodeBase32 cs
  | .bytes key => .ok key

/-- The host has the key of a secret after its decode stream, or at once. -/
theorem secretKey_eq (secret : Secret) {s : State} (hr : s.rstSeen = true) :
    ∃ t, secretKey secret s = .next (keyOfSecret secret, t) ∧ t.rstSeen = true := by
  cases secret with
  | bytes key => exact ⟨s, rfl, hr⟩
  | base32 cs =>
    obtain ⟨t, hdecode⟩ := hostDecode_spec cs hr
    obtain ⟨rs, u, hrun, hru⟩ := issueAll_answers (pseudoStr cs) hr
    obtain ⟨p, hp, hlast⟩ := andThen_eq_next hdecode
    obtain rfl : (rs, u) = p := Host.Outcome.next.inj (hrun.symm.trans hp)
    obtain ⟨-, rfl⟩ := Prod.mk.inj (Host.Outcome.next.inj hlast)
    exact ⟨u, hdecode, hru⟩

/-! ### Generating a code -/

/-- `generateTotp` fails as its secret does (R238). -/
theorem generateTotp_of_error {secret : Secret} {e : InvalidEncodingError} (hkey : keyOfSecret secret = .error e)
    (ms : Int) {s : State} (hr : s.rstSeen = true) :
    ∃ t, generateTotp secret ms s = .next (.error .invalidEncoding, t) := by
  obtain ⟨t, hsecret, -⟩ := secretKey_eq secret hr
  exact ⟨t, by rw [generateTotp, hsecret, andThen_next, hkey]⟩

/-- `generateTotp` gives the code of the timestamp's counter under the key of its secret (R238). -/
theorem generateTotp_of_key {secret : Secret} {key : List Byte} (hkey : keyOfSecret secret = .ok key)
    (ms : Int) {s : State} (hr : s.rstSeen = true) :
    ∃ t, generateTotp secret ms s = .next (.ok (codeOfCounter key (counterOfMs ms)), t) := by
  obtain ⟨u, hsecret, hru⟩ := secretKey_eq secret hr
  obtain ⟨t, hgen, -⟩ := generateCode_eq key (counterOfMs ms) hru
  exact ⟨t, by simp only [generateTotp, hsecret, hkey, hgen, andThen_next]⟩

/-- Settles O58, by `generateTotp_of_error` and `generateTotp_of_key`. -/
theorem totpOfSecret : Obligations.TotpOfSecret :=
  ⟨fun cs _ ms _ hr hdecode => generateTotp_of_error (secret := .base32 cs) hdecode ms hr,
    fun cs _ ms _ hr hdecode => generateTotp_of_key (secret := .base32 cs) hdecode ms hr,
    fun key ms _ hr => generateTotp_of_key (secret := .bytes key) rfl ms hr⟩

/-! ### Verifying a token -/

/-- Trying a list of counters finds whether some code of theirs is the token (R239). -/
theorem anyMatches_eq (token : List CharCode) (key : List Byte) (cs : List Int) {s : State} (hr : s.rstSeen = true) :
    ∃ b t, anyMatches token key cs s = .next (b, t) ∧
      (b = true ↔ ∃ i ∈ cs, (codeOfCounter key i).map charOfByte = token) := by
  induction cs generalizing s with
  | nil => exact ⟨false, s, rfl, by simp⟩
  | cons c cs ih =>
    obtain ⟨u, hgen, hru⟩ := generateCode_eq key c hr
    obtain ⟨b, t, hrest, hb⟩ := ih hru
    refine ⟨decide ((codeOfCounter key c).map charOfByte = token) || b, t, ?_, ?_⟩
    · simp only [anyMatches, hgen, hrest, andThen_next]
    · rw [Bool.or_eq_true, decide_eq_true_iff, hb, List.exists_mem_cons_iff]

/-- The window's counters are the integers from `c - W` to `c + W` (R239). -/
theorem mem_windowCounters (c : Int) (w : Nat) (i : Int) :
    i ∈ windowCounters c w ↔ c - w ≤ i ∧ i ≤ c + w := by
  rw [windowCounters_eq, List.mem_map]
  constructor
  · rintro ⟨j, hj, rfl⟩
    have hlt : j < 2 * w + 1 := List.mem_range.mp hj
    omega
  · rintro ⟨hlo, hhi⟩
    exact ⟨(i - (c - w)).toNat, List.mem_range.mpr (by omega), by omega⟩

/-- `verifyTotp` fails as its secret does (R239). -/
theorem verifyTotp_of_error (token : List CharCode) {secret : Secret} {e : InvalidEncodingError}
    (hkey : keyOfSecret secret = .error e) (ms : Int) (w : Nat) {s : State} (hr : s.rstSeen = true) :
    ∃ t, verifyTotp token secret ms s w = .next (.error .invalidEncoding, t) := by
  obtain ⟨t, hsecret, -⟩ := secretKey_eq secret hr
  exact ⟨t, by rw [verifyTotp, hsecret, andThen_next, hkey]⟩

/-- `verifyTotp` accepts the codes of the window's counters under the key of its secret (R239). -/
theorem verifyTotp_of_key (token : List CharCode) {secret : Secret} {key : List Byte}
    (hkey : keyOfSecret secret = .ok key) (ms : Int) (w : Nat) {s : State} (hr : s.rstSeen = true) :
    ∃ b t, verifyTotp token secret ms s w = .next (.ok b, t) ∧
      (b = true ↔ ∃ i : Int, counterOfMs ms - w ≤ i ∧ i ≤ counterOfMs ms + w ∧
        (codeOfCounter key i).map charOfByte = token) := by
  obtain ⟨u, hsecret, hru⟩ := secretKey_eq secret hr
  obtain ⟨b, t, hany, hb⟩ := anyMatches_eq token key (windowCounters (counterOfMs ms) w) hru
  refine ⟨b, t, by simp only [verifyTotp, hsecret, hkey, hany, andThen_next], ?_⟩
  simp only [hb, mem_windowCounters, and_assoc]

/-- Settles O59, by `verifyTotp_of_error` and `verifyTotp_of_key`. -/
theorem verifyChecksTheWindow : Obligations.VerifyChecksTheWindow := by
  refine ⟨rfl, fun token cs _ ms w _ hr hdecode =>
    verifyTotp_of_error token (secret := .base32 cs) hdecode ms w hr, fun token secret key ms w s hr hsecret => ?_⟩
  have hkey : keyOfSecret secret = .ok key := by
    obtain rfl | ⟨cs, rfl, hdecode⟩ := hsecret
    · rfl
    · exact hdecode
  exact verifyTotp_of_key token hkey ms w hr

end Sys2Proof.Proofs
end
